-- ==== Sys2Proof/Word.lean ====
section
/-! DEFINITION. The two word widths of the block: bytes (spec/00_scope.md R7) and the 16-bit
registers of spec/10_state.md R15 and R17. -/

namespace Sys2Proof

/-- A byte, 0..255 (R7). -/
abbrev Byte := BitVec 8

/-- A 16-bit register (`DLEN`, `TXLEN`, `EINFO0`, `EINFO1`; R15, R17). -/
abbrev Half := BitVec 16

end Sys2Proof
end

