-- ==== Sys2Proof/Syntax.lean ====
section
/-! DEFINITION. The instructions: the eleven operations of spec/30_encoding.md R62. A command word
has no operand field (R61), so no constructor has an argument. -/

namespace Sys2Proof

/-- One constructor per row of spec/opcode_table.json. -/
inductive Instr where
  /-- AENC, `AddressCodec.encode` (40_address_codec.md R83). -/
  | aenc
  /-- ADEC, `AddressCodec.decode` (40_address_codec.md R85). -/
  | adec
  /-- RLOOK, the registry look-up (41_field_registry.md R95). -/
  | rlook
  /-- FEXT, field extraction (41_field_registry.md R105). -/
  | fext
  /-- CSUM, `ChecksumEngine.compute` (42_checksum.md R112). -/
  | csum
  /-- BREAD, `buildRead` (43_frame_builder.md R123). -/
  | bread
  /-- BWRITE, `buildWrite` (43_frame_builder.md R124). -/
  | bwrite
  /-- BMREAD, `buildMultiRead` (43_frame_builder.md R125). -/
  | bmread
  /-- BBCAST, `buildBroadcast` (43_frame_builder.md R126). -/
  | bbcast
  /-- BCTRL, `buildControl` (43_frame_builder.md R128). -/
  | bctrl
  /-- PARSE, `FrameParser.parse` (44_frame_parser.md R151). -/
  | parse
  deriving DecidableEq, Repr

end Sys2Proof
end

