-- ==== Sys2Proof/Decode.lean ====
section
/-! DEFINITION. The command word (spec/30_encoding.md R60 to R63): its two fields, the decoder, total
on every byte and refusing reserved words by name, the encoder written from the same table, and the
opcode table of spec/opcode_table.json row by row. -/

namespace Sys2Proof

/-- Why a command word names no operation (R63). -/
inductive Reserved where
  /-- Bits 7:4 are not 0. -/
  | rsvNotZero
  /-- Bits 7:4 are 0 and `op` is 0x0 or 0xC..0xF. -/
  | opReserved
  deriving DecidableEq, Repr

/-- Field `rsv`, bits 7:4 (R60). -/
def rsvField (w : Byte) : BitVec 4 := w.extractLsb' 4 4

/-- Field `op`, bits 3:0 (R60). -/
def opField (w : Byte) : BitVec 4 := w.extractLsb' 0 4

/-- The operation of a number (R62); `none` for a reserved number (R63). -/
def instrOfOp (op : BitVec 4) : Option Instr :=
  match op.toNat with
  | 0x1 => some .aenc
  | 0x2 => some .adec
  | 0x3 => some .rlook
  | 0x4 => some .fext
  | 0x5 => some .csum
  | 0x6 => some .bread
  | 0x7 => some .bwrite
  | 0x8 => some .bmread
  | 0x9 => some .bbcast
  | 0xA => some .bctrl
  | 0xB => some .parse
  | _ => none

/-- Decode a command word (R60, R62, R63). -/
def decode (w : Byte) : Except Reserved Instr :=
  if rsvField w = 0 then
    match instrOfOp (opField w) with
    | some i => .ok i
    | none => .error .opReserved
  else .error .rsvNotZero

/-- The operation number of an instruction (R62). -/
def opOf : Instr → BitVec 4
  | .aenc => 0x1
  | .adec => 0x2
  | .rlook => 0x3
  | .fext => 0x4
  | .csum => 0x5
  | .bread => 0x6
  | .bwrite => 0x7
  | .bmread => 0x8
  | .bbcast => 0x9
  | .bctrl => 0xA
  | .parse => 0xB

/-- The command word of an instruction: `rsv` = 0 above `op` (R60). -/
def encode (i : Instr) : Byte := (0 : BitVec 4) ++ opOf i

/-- A row of spec/opcode_table.json. -/
structure OpcodeRow where
  mask : Byte
  pattern : Byte
  instr : Instr
  deriving DecidableEq, Repr

/-- The rows of spec/opcode_table.json, in its order. -/
def opcodeTable : List OpcodeRow :=
  [⟨0xFF, 0x01, .aenc⟩, ⟨0xFF, 0x02, .adec⟩, ⟨0xFF, 0x03, .rlook⟩, ⟨0xFF, 0x04, .fext⟩,
   ⟨0xFF, 0x05, .csum⟩, ⟨0xFF, 0x06, .bread⟩, ⟨0xFF, 0x07, .bwrite⟩, ⟨0xFF, 0x08, .bmread⟩,
   ⟨0xFF, 0x09, .bbcast⟩, ⟨0xFF, 0x0A, .bctrl⟩, ⟨0xFF, 0x0B, .parse⟩]

/-- The row a word matches. -/
def OpcodeRow.hits (row : OpcodeRow) (w : Byte) : Bool := w &&& row.mask == row.pattern

/-- What the decoder reads from an instruction whose bits are `w`: a command word is the one byte
(R60); a number that does not fit it is no command word. -/
def decodeTableWord (_nbits w : Nat) : Option Instr :=
  if w < 256 then (decode (BitVec.ofNat 8 w)).toOption else none

end Sys2Proof
end

