-- ==== Sys2Proof/Config.lean ====
section
/-! DEFINITION. What is fixed when a block is built: the protocol variant, the field registry, and
the constants the spec leaves open (`variant_sel`, the registry's contents and one info word). -/

namespace Sys2Proof

/-- The protocol variant (spec/10_state.md R13). There is no third (93_implementation_defined.md U5)
and no default; its bit values are `variantBit` and `variantOfBit` of Machine/Params.lean. -/
inductive Variant where
  | legacy
  | revised
  deriving DecidableEq, Repr, Inhabited

/-- The byte order of a value (20_memory.md R35). -/
inductive ByteOrder where
  | big
  | little
  deriving DecidableEq, Repr, Inhabited

/-- The decimal multiplier of a descriptor (41_field_registry.md R90): the exact rational
`sn / (sdPred + 1)`. The denominator is held as its predecessor, so that `sd > 0` holds of every
value of the type (DESIGN CHOICE, safe: notes/assumptions/10.md). -/
structure Scale where
  sn : Nat
  sdPred : Nat
  deriving DecidableEq, Repr, Inhabited

/-- A custom decode rule (R90, R98): a total map from raw values to labels, written as the finite
list of the raw values that have a label of their own and the label of every other raw value
(DESIGN CHOICE, safe: notes/assumptions/10.md). -/
structure CustomDecode where
  cases : List (Nat × String)
  otherwise : String
  deriving DecidableEq, Repr, Inhabited

/-- A descriptor `{ name, unit, scale, byteWidth, byteOrder, customDecode? }` (R90). -/
structure Descriptor where
  name : String
  unit : String
  scale : Scale
  byteWidth : Nat
  byteOrder : ByteOrder
  customDecode : Option CustomDecode
  deriving DecidableEq, Repr, Inhabited

/-- One row of the registry: the identifier's bytes in wire order and its descriptor (R91). -/
structure RegistryRow where
  key : List Byte
  desc : Descriptor
  deriving DecidableEq, Repr, Inhabited

/-- The registry (10_state.md R14; R91): one table per variant. -/
structure Registry where
  legacy : List RegistryRow
  revised : List RegistryRow
  deriving DecidableEq, Repr, Inhabited

/-- The table of one variant. -/
def Registry.rows (r : Registry) : Variant → List RegistryRow
  | .legacy => r.legacy
  | .revised => r.revised

/-- The strap input `variant_sel`, one bit, as sampled at reset (70_reset_and_hazards.md R191). The
spec gives it no default (U4, U10), so nothing here says which value it has
(notes/assumptions/1.md). -/
opaque Config.variantSel : BitVec 1

/-- The registry built into the block (R91, U14). The spec leaves its contents open, so nothing here
says what they are (notes/assumptions/2.md). -/
opaque Config.registry : Registry

/-- The info word that stands for a buffer length of 65536 or more, which 16 bits do not hold: the
spec states none, so nothing here says what it is (DESIGN CHOICE, safe: notes/assumptions/18.md). -/
opaque Config.overlongLengthWord : Nat → BitVec 16

end Sys2Proof
end

