-- ==== Sys2Proof/Machine/Params.lean ====
section
/-! DEFINITION. The implementation parameters of spec/00_scope.md R5 and R6 and the named bytes of
the frame format (30_encoding.md R51, R54). -/

namespace Sys2Proof.Machine

/-- The bit of the variant register: 0 Legacy, 1 Revised (10_state.md R13). -/
def variantBit : Variant → BitVec 1
  | .legacy => 0
  | .revised => 1

/-- The variant a strap bit selects: 0 Legacy, 1 Revised (70_reset_and_hazards.md R191). -/
def variantOfBit (b : BitVec 1) : Variant := if b = 0 then .legacy else .revised

/-- `IDW`, the identifier width in bytes (R5). -/
def idw : Variant → Nat
  | .legacy => 4
  | .revised => 6

/-- `MINLEN`, the length floor of PARSE (R5; 90_conflicts.md C1 keeps 13 and 14). -/
def minLen : Variant → Nat
  | .legacy => 13
  | .revised => 14

/-- `CCSET`, the variant's control codes (R5; 30_encoding.md R54). -/
def ccSet : Variant → List Byte
  | .legacy => [0x01, 0x81, 0x02, 0x82]
  | .revised => [0x01, 0x81, 0x02, 0x82, 0x08, 0x0F, 0x03, 0x83, 0x04, 0x84]

/-- `MAXW`, the largest `byteWidth` (R6, 41_field_registry.md R92). -/
def MAXW : Nat := 8

/-- `DCAP`, the capacity of `DBUF` (R6, 10_state.md R16). -/
def DCAP : Nat := 512

/-- `TXCAP`, the capacity of `TXBUF` (R6, 10_state.md R17). -/
def TXCAP : Nat := 266

/-- The capacity of `R_PAY` (10_state.md R17). -/
def PAYCAP : Nat := 255

/-- `MAXID`, the number of identifier slots (R6, 10_state.md R15). -/
def MAXID : Nat := 64

/-- `MAXF`, the most field records of one payload (R6, 10_state.md R19). -/
def MAXF : Nat := 63

/-- The longest payload the one length byte can tell (30_encoding.md R56). -/
def MAXPAYLOAD : Nat := 255

/-- The start marker (30_encoding.md R51). -/
def startMarker : Byte := 0x68

/-- The end marker (30_encoding.md R51). -/
def endMarker : Byte := 0x16

/-- The control code READ (30_encoding.md R54). -/
def readCC : Byte := 0x01

/-- The value decided for the parameter `LEGACY_CONTROL_CC`, for a block built without another (R6,
43_frame_builder.md R127; 93_implementation_defined.md U13, "parameter, default 0x02"). -/
def defaultLegacyControlCC : Byte := 0x02

/-- The control code CONTROL of the Revised variant (30_encoding.md R54, 43_frame_builder.md R127). -/
def revisedControlCC : Byte := 0x0F

end Sys2Proof.Machine
end

