-- ==== Sys2Proof/WellFormed.lean ====
section
/-! DEFINITION. The well-formedness checks. An instruction of this block has no field that could be
ill-formed (spec/30_encoding.md R61); what can be ill-formed is the registry a block is built with
(41_field_registry.md R92). Non-negative scales with a positive denominator and total custom rules
hold of every value of the types in Config.lean. -/

namespace Sys2Proof

/-- Every operation is well-formed: the command word carries nothing but the operation number
(30_encoding.md R60, R61). -/
def Instr.wf (_ : Instr) : Bool := true

/-- `byteWidth` is in 0..`MAXW` (R92). -/
def Descriptor.wf (d : Descriptor) : Bool := decide (d.byteWidth ≤ Machine.MAXW)

/-- The key has exactly `IDW` bytes and the descriptor is well-formed (R92). -/
def RegistryRow.wf (v : Variant) (row : RegistryRow) : Bool :=
  decide (row.key.length = Machine.idw v) && row.desc.wf

/-- The table of one variant: every row well-formed, no key twice (R92). -/
def Registry.tableWf (v : Variant) (rows : List RegistryRow) : Bool :=
  rows.all (fun row => row.wf v) && decide (rows.map RegistryRow.key).Nodup

/-- A well-formed registry (R92). -/
def Registry.wf (r : Registry) : Bool :=
  Registry.tableWf .legacy r.legacy && Registry.tableWf .revised r.revised

/-- The registry a block starts with: the built-in one, which only a well-formed registry can be
(R92, R193; 93_implementation_defined.md U12). An ill-formed choice is replaced by the empty table,
so that what is known of this constant is that it is well-formed and nothing else
(notes/assumptions/2.md). -/
def Config.builtInRegistry : Registry :=
  if Config.registry.wf then Config.registry else { legacy := [], revised := [] }

end Sys2Proof
end

