-- ==== Sys2Proof/Machine/State.lean ====
section
/-! DEFINITION. Every piece of state the spec gives the block (spec/10_state.md), as plain data, in
its three kinds (R10): configuration, operand registers and result registers. Fields carry the
spec's own register names. -/

namespace Sys2Proof.Machine

/-- The three byte buffers, each an address space of its own (20_memory.md R30). -/
inductive Space where
  | dbuf
  | txbuf
  | rpay
  deriving DecidableEq, Repr

/-- The contents of a buffer: cells with rising addresses (`Memory.wf` in Ops.lean is the canonical
form, `Space.unlisted` what an address that is not listed reads as). -/
abbrev Memory := List Host.Cell

/-- The value of a field record (10_state.md R19): a number of thousandths, or a label. -/
inductive FieldValue where
  | numeric (milli : Nat)
  | status (label : String)
  deriving DecidableEq, Repr

/-- A field record (10_state.md R19). -/
structure FieldRecord where
  id : List Byte
  name : String
  unit : String
  raw : Nat
  val : FieldValue
  deriving DecidableEq, Repr

/-- The configuration (R10 (a)), fixed at construction. -/
structure Configuration where
  /-- The variant register (R13). -/
  VARIANT : Variant
  /-- The registry ROM (R14). -/
  REGISTRY : Registry
  /-- The parameter of 43_frame_builder.md R127, fixed when the block is built; any value may be given
  (00_scope.md R6, notes/assumptions/3.md). -/
  LEGACY_CONTROL_CC : Byte
  deriving DecidableEq, Repr

/-- The operand registers and `DBUF` (R10 (b), R15): written by the host only. -/
structure Operands where
  OPC : Byte
  A_LEN : Byte
  A_CH : Vector Byte 12
  WADDR : Vector Byte 6
  CC : Byte
  LEN : Byte
  CMDB : Byte
  NID : Byte
  ID_LEN : Vector Byte 64
  ID_B : Vector (Vector Byte 6) 64
  DLEN : Half
  DBUF : Memory
  deriving DecidableEq, Repr

/-- The result registers and buffers (R10 (c), R17): written by the block only. `none`, an unlisted
cell and an absent record are the spec's "holds no value" (R20). -/
structure Results where
  ST : Byte
  ERRC : Byte
  EINFO0 : Half
  EINFO1 : Half
  TXLEN : Option Half
  TXBUF : Memory
  R_WADDR : Option (Vector Byte 6)
  R_ADDR : Option (Vector Byte 12)
  R_CC : Option Byte
  R_PLEN : Option Byte
  R_PAY : Memory
  R_CSRX : Option Byte
  R_CSCALC : Option Byte
  R_NF : Option Byte
  /-- `R_F[0 .. R_NF)`; a record beyond the end of the list holds no value. -/
  R_F : List FieldRecord
  R_HIT : Option (BitVec 1)
  R_DESC : Option Descriptor
  deriving DecidableEq, Repr

/-- The whole state of one block. -/
structure State where
  cfg : Configuration
  opr : Operands
  res : Results
  deriving DecidableEq, Repr

/-- The names of the result registers, as a host reads them (R17). -/
inductive ResultReg where
  | st | errc | einfo0 | einfo1
  | txlen
  | txbuf (off : Nat)
  | rWaddr (i : Fin 6)
  | rAddr (i : Fin 12)
  | rCc | rPlen
  | rPay (off : Nat)
  | rCsrx | rCscalc
  | rNf
  | rF (k : Fin 63)
  | rHit
  | rDesc
  deriving DecidableEq, Repr

/-- Why the machine stops. No operation faults; both reasons are raised by the host's port. -/
inductive Fault where
  /-- Raised by `hostRead`: the result register holds no value (R20: "reading it is a fault of the
  model"; 93_implementation_defined.md U6: "fault"; 92_eei_decisions.md D23). Safe: nothing can be proved of a value that is not there. -/
  | noValue (r : ResultReg)
  /-- Raised by `hostRead` and `hostWrite`: the buffer has no such offset (20_memory.md R30). Safe. -/
  | noSuchAddress (space : Space) (off : Nat)
  deriving DecidableEq, Repr

/-- What the model has no meaning for. -/
inductive Refusal where
  /-- Raised by `exec` for an instruction that has no meaning yet; no arm raises it. Safe. -/
  | notModelled (mnemonic : String)
  /-- Raised by `hostWrite` and by the five operations that read `DBUF`: `DLEN` above `DCAP` cannot
  be presented (10_state.md R16; 93_implementation_defined.md U11: "refuse"). Safe. -/
  | dlenAboveDcap
  /-- Raised by `construct`: the strap is not driven (U10: "refuse"). Safe. -/
  | variantUndriven
  /-- Raised by `construct`: the registry is not well-formed (U12: "refuse"). Safe. -/
  | registryIllFormed
  deriving DecidableEq, Repr

/-- Every result register holding no value, with the status and error registers as given. -/
def Results.noValues (st errc : Byte) (einfo0 einfo1 : Half) : Results where
  ST := st
  ERRC := errc
  EINFO0 := einfo0
  EINFO1 := einfo1
  TXLEN := none
  TXBUF := []
  R_WADDR := none
  R_ADDR := none
  R_CC := none
  R_PLEN := none
  R_PAY := []
  R_CSRX := none
  R_CSCALC := none
  R_NF := none
  R_F := []
  R_HIT := none
  R_DESC := none

/-- The operand registers after reset. The spec leaves them unspecified (70_reset_and_hazards.md
R192); zero is the model's choice (DESIGN CHOICE, unsafe: notes/assumptions/4.md, 5.md). -/
def Operands.reset : Operands where
  OPC := 0
  A_LEN := 0
  A_CH := Vector.replicate 12 0
  WADDR := Vector.replicate 6 0
  CC := 0
  LEN := 0
  CMDB := 0
  NID := 0
  ID_LEN := Vector.replicate 64 0
  ID_B := Vector.replicate 64 (Vector.replicate 6 0)
  DLEN := 0
  DBUF := []

/-- The state right after the construction of a block (R190 to R192) with the configuration given. -/
def State.constructed (g : Configuration) : State where
  cfg := g
  opr := Operands.reset
  res := Results.noValues 0 0 0 0

/-- The machine right after reset (R192): the strap as sampled, the registry as built in, and the
parameter `LEGACY_CONTROL_CC` at its default (notes/assumptions/3.md). -/
def State.reset : State := State.constructed
  { VARIANT := variantOfBit Config.variantSel
    REGISTRY := Config.builtInRegistry
    LEGACY_CONTROL_CC := defaultLegacyControlCC }

end Sys2Proof.Machine
end

