-- ==== Sys2Proof/Machine/Flags.lean ====
section
/-! DEFINITION. The status register `ST` (spec/10_state.md R18), the block's only flags. -/

namespace Sys2Proof.Machine

/-- `ST` with its three flags; bits 7:3 are 0. -/
def stWord (done err ccKnown : Bool) : Byte :=
  (0 : BitVec 5) ++ BitVec.ofBool ccKnown ++ BitVec.ofBool err ++ BitVec.ofBool done

/-- Bit 0 of `ST`: the last started operation has completed. -/
def doneFlag (st : Byte) : Bool := st.getLsbD 0

/-- Bit 1 of `ST`: that operation failed. -/
def errFlag (st : Byte) : Bool := st.getLsbD 1

/-- Bit 2 of `ST`: the control code of the parsed frame is in `CCSET`. -/
def ccKnownFlag (st : Byte) : Bool := st.getLsbD 2

/-- Bits 7:3 of `ST`, reserved, read as 0. -/
def reservedBits (st : Byte) : BitVec 5 := st.extractLsb' 3 5

/-- The value of `CC_KNOWN` after a successful PARSE (44_frame_parser.md R150). -/
def ccKnownOf (v : Variant) (cc : Byte) : Bool := (ccSet v).contains cc

end Sys2Proof.Machine
end

