-- ==== Sys2Proof/Machine/Primitives.lean ====
section
/-! DEFINITION. The text and number primitives of spec/00_scope.md R8 and R9. -/

namespace Sys2Proof.Machine

/-- `hexval` (R8): the value of a hexadecimal character code, `none` for any other code. -/
def hexVal (ch : Byte) : Option Nat :=
  if 0x30 ≤ ch.toNat ∧ ch.toNat ≤ 0x39 then some (ch.toNat - 0x30)
  else if 0x41 ≤ ch.toNat ∧ ch.toNat ≤ 0x46 then some (ch.toNat - 0x41 + 10)
  else if 0x61 ≤ ch.toNat ∧ ch.toNat ≤ 0x66 then some (ch.toNat - 0x61 + 10)
  else none

/-- `hexchar` (R8): the character code of a nibble, always upper case. -/
def hexChar (n : BitVec 4) : Byte :=
  if n.toNat ≤ 9 then BitVec.ofNat 8 (0x30 + n.toNat) else BitVec.ofNat 8 (0x41 + n.toNat - 10)

/-- `byte_of` (R8). The spec defines it where both characters have a value, and every use is behind
that check (R81); the 0 taken elsewhere is never read. -/
def byteOf (hi lo : Byte) : Byte :=
  BitVec.ofNat 8 (16 * (hexVal hi).getD 0 + (hexVal lo).getD 0)

/-- The first character of `chars_of`, the high nibble's (R8). -/
def highChar (b : Byte) : Byte := hexChar (b.extractLsb' 4 4)

/-- The second character of `chars_of`, the low nibble's (R8). -/
def lowChar (b : Byte) : Byte := hexChar (b.extractLsb' 0 4)

/-- `uint_be` (R9): first byte most significant. -/
def uintBE (bytes : List Byte) : Nat := bytes.foldl (fun acc b => 256 * acc + b.toNat) 0

/-- `uint_le` (R9): first byte least significant. -/
def uintLE : List Byte → Nat
  | [] => 0
  | b :: rest => b.toNat + 256 * uintLE rest

/-- `uint(v, order)` (R9). -/
def uint (bytes : List Byte) : ByteOrder → Nat
  | .big => uintBE bytes
  | .little => uintLE bytes

/-- `xor_all` (R9): the running exclusive or, 0 of the empty sequence. -/
def xorAll (bytes : List Byte) : Byte := bytes.foldl (· ^^^ ·) 0

/-- `round3` of `raw * sn / sd` in thousandths, half up (R9; 41_field_registry.md R99). -/
def milliOf (raw : Nat) (scale : Scale) : Nat :=
  (2 * raw * scale.sn * 1000 + (scale.sdPred + 1)) / (2 * (scale.sdPred + 1))

/-- The slice `b[i .. j)` (R7). -/
def slice (bytes : List Byte) (i j : Nat) : List Byte := (bytes.drop i).take (j - i)

/-- The byte `b[i]` (R7). Every use is at an index that exists (20_memory.md R40); the 0 taken
elsewhere is never read. -/
def byteAt (bytes : List Byte) (i : Nat) : Byte := bytes.getD i 0

end Sys2Proof.Machine
end

