-- ==== Sys2Proof/Machine/Ops.lean ====
section
/-! DEFINITION. The shared operations: reading and writing the byte buffers (spec/20_memory.md),
raising an error and completing (60_exceptions.md R165), and starting an operation. -/

namespace Sys2Proof.Machine

/-- The size of a buffer in bytes (20_memory.md R30). -/
def Space.size : Space → Nat
  | .dbuf => DCAP
  | .txbuf => TXCAP
  | .rpay => PAYCAP

/-- What an address that is not listed reads as. A result buffer's byte holds no value until an
operation writes it (10_state.md R20). A byte of `DBUF` that the host has not written is unspecified
(70_reset_and_hazards.md R192); it reads as 0 (DESIGN CHOICE, unsafe: notes/assumptions/5.md). -/
def Space.unlisted : Space → Option Byte
  | .dbuf => some 0
  | .txbuf => none
  | .rpay => none

/-- The canonical form: rising addresses below the buffer's size, and no cell equal to what an
unlisted address reads as. -/
abbrev Memory.wf (sp : Space) (m : Memory) : Prop :=
  m.Pairwise (fun x y => x.1 < y.1) ∧ ∀ c ∈ m, c.1 < sp.size ∧ some c.2 ≠ sp.unlisted

/-- Read one byte; `none` where the byte holds no value. -/
def Memory.read (sp : Space) : Memory → Nat → Option Byte
  | [], _ => sp.unlisted
  | (k, x) :: m, a => if a = k then some x else Memory.read sp m a

/-- Write one byte, keeping the canonical form. -/
def Memory.writeByte (sp : Space) : Memory → Nat → Byte → Memory
  | [], a, b => if some b = sp.unlisted then [] else [(a, b)]
  | (k, x) :: m, a, b =>
    if a < k then
      if some b = sp.unlisted then (k, x) :: m else (a, b) :: (k, x) :: m
    else if a = k then
      if some b = sp.unlisted then m else (a, b) :: m
    else (k, x) :: Memory.writeByte sp m a b

/-- `MemWrite(buf, off, n, v)` (00_scope.md R7), with `n` the length of `v`. -/
def Memory.write (sp : Space) : Memory → Nat → List Byte → Memory
  | m, _, [] => m
  | m, off, b :: rest => Memory.write sp (Memory.writeByte sp m off b) (off + 1) rest

/-- One byte of `DBUF`. -/
def dataByte (m : Memory) (a : Nat) : Byte := (Memory.read .dbuf m a).getD 0

/-- `MemRead(DBUF, off, n)` (00_scope.md R7). -/
def dataSlice (m : Memory) (off n : Nat) : List Byte :=
  (List.range n).map fun i => dataByte m (off + i)

/-- The errors (60_exceptions.md R161). -/
inductive Err where
  | invalidAddress
  | invalidFieldIdentifier
  | frameTooShort
  | delimiterMismatch
  | lengthMismatch
  | checksumMismatch
  | payloadTooLong
  | illegalOp
  deriving DecidableEq, Repr

/-- The error codes, the values of `ERRC` (R161). -/
def Err.code : Err → Byte
  | .invalidAddress => 1
  | .invalidFieldIdentifier => 2
  | .frameTooShort => 3
  | .delimiterMismatch => 4
  | .lengthMismatch => 5
  | .checksumMismatch => 6
  | .payloadTooLong => 7
  | .illegalOp => 8

/-- An error with the two values it carries (R162). -/
structure Raised where
  err : Err
  info0 : Half
  info1 : Half
  deriving DecidableEq, Repr

/-- The result registers an error leaves (R165): code and info words, `DONE` and `ERR`, and no value
anywhere else. -/
def Results.ofError (e : Raised) : Results :=
  Results.noValues (stWord true true false) e.err.code e.info0 e.info1

/-- Error entry, the block's one way of taking an exception (R165). Nothing is saved, no mode
changes and control goes nowhere; there is no return from it (R167). -/
def raiseError (e : Raised) (s : State) : State := { s with res := Results.ofError e }

/-- The result registers a successful operation starts from (R165): codes 0, `DONE`, and no value in
any register the operation does not list (10_state.md R20). -/
def Results.completed (ccKnown : Bool) : Results :=
  Results.noValues (stWord true false ccKnown) 0 0 0

/-- The end of an operation: its results, or its error. Configuration and operand registers stay as
they are (10_state.md R10, R15). -/
def settle (outcome : Except Raised Results) (s : State) : State :=
  match outcome with
  | .ok r => { s with res := r }
  | .error e => raiseError e s

/-- Run an operation, a function of the configuration and the operand registers (10_state.md R11),
as one atomic transition (R12). -/
def runOperation (f : Configuration → Operands → Except Raised Results) (s : State) :
    Host.Outcome State Fault Refusal :=
  .next (settle (f s.cfg s.opr) s)

/-- Run an operation that reads `DBUF`. More than `DCAP` bytes cannot be presented (10_state.md R16);
such a state is refused (93_implementation_defined.md U11; notes/assumptions/8.md). -/
def runDataOperation (f : Configuration → Operands → Except Raised Results) (s : State) :
    Host.Outcome State Fault Refusal :=
  if s.opr.DLEN.toNat ≤ DCAP then runOperation f s else .refused .dlenAboveDcap

/-- A check of an operation's rule: raise the error unless the condition holds. -/
def require (c : Bool) (e : Raised) : Except Raised Unit :=
  if c then .ok () else .error e

/-- The command word of the next operation (30_encoding.md R60). -/
def commandWord (s : State) : Byte := s.opr.OPC

/-- Starting a reserved command word (30_encoding.md R63): no operand is read. -/
def illegalOp (s : State) : State :=
  raiseError ⟨.illegalOp, (commandWord s).zeroExtend 16, 0⟩ s

end Sys2Proof.Machine
end

