-- ==== Sys2Proof/Machine/Operands.lean ====
section
/-! DEFINITION. The operand forms: the canonical address, an identifier slot, a list of identifier
slots, the presented data, and the payload bound. -/

namespace Sys2Proof.Machine

/-- A valid canonical address (spec/40_address_codec.md R81): 12 characters, each hexadecimal. -/
abbrev validAddress (o : Operands) : Prop :=
  o.A_LEN = 12 ∧ ∀ i : Fin 12, (hexVal o.A_CH[i]).isSome = true

/-- The canonical bytes of an address string: segment `i` is characters `2i` and `2i+1`
(30_encoding.md R58). -/
def canonicalBytes (o : Operands) : Vector Byte 6 :=
  Vector.ofFn fun i => byteOf (o.A_CH[2 * i.val]) (o.A_CH[2 * i.val + 1])

/-- The address operand: its canonical bytes, or `InvalidAddress(0, A_LEN)` (R83;
43_frame_builder.md R121 check 1). -/
def addressOperand (o : Operands) : Except Raised (Vector Byte 6) := do
  require (decide (validAddress o)) ⟨.invalidAddress, 0, o.A_LEN.zeroExtend 16⟩
  return canonicalBytes o

/-- The identifier in slot `k` (41_field_registry.md R109): its `IDW` bytes, or
`InvalidFieldIdentifier(1 + k, ID_LEN[k])` (43_frame_builder.md R121 check 3). -/
def identifierOperand (v : Variant) (o : Operands) (k : Fin 64) : Except Raised (List Byte) := do
  require (decide ((o.ID_LEN[k]).toNat = idw v))
    ⟨.invalidFieldIdentifier, BitVec.ofNat 16 (1 + k.val), (o.ID_LEN[k]).zeroExtend 16⟩
  return (o.ID_B[k]).toList.take (idw v)

/-- Identifiers of several slots, in the order given; the first ill-shaped one ends it (R121). -/
def identifierOperands (v : Variant) (o : Operands) : List (Fin 64) → Except Raised (List (List Byte))
  | [] => .ok []
  | k :: ks => do
    let id ← identifierOperand v o k
    let ids ← identifierOperands v o ks
    return id :: ids

/-- The presented data `DBUF[0 .. DLEN)` (10_state.md R15). -/
def presentedData (o : Operands) : List Byte := dataSlice o.DBUF 0 o.DLEN.toNat

/-- The payload bound (30_encoding.md R56): `PayloadTooLong(n, 255)` above 255 bytes. -/
def payloadBound (n : Nat) : Except Raised Unit :=
  require (decide (n ≤ MAXPAYLOAD)) ⟨.payloadTooLong, BitVec.ofNat 16 n, 255⟩

end Sys2Proof.Machine
end

