-- ==== Sys2Proof/Machine/AddressCodec.lean ====
section
/-! DEFINITION. AddressCodec: the transform `T` and the operations AENC and ADEC
(spec/40_address_codec.md). -/

namespace Sys2Proof.Machine

/-- `T` (R82): each byte complemented, the order of the six reversed. -/
def transform (bytes : Vector Byte 6) : Vector Byte 6 :=
  Vector.ofFn fun i => 0xFF - bytes[5 - i.val]

/-- The canonical string of six canonical bytes: two upper-case characters each (R85). -/
def canonicalChars (bytes : Vector Byte 6) : Vector Byte 12 :=
  Vector.ofFn fun i =>
    if i.val % 2 = 0 then highChar (bytes[i.val / 2]) else lowChar (bytes[i.val / 2])

/-- The canonical string of a wire address (R85). -/
def restoreAddress (wire : Vector Byte 6) : Vector Byte 12 := canonicalChars (transform wire)

/-- AENC (R83). -/
def aenc (_ : Configuration) (o : Operands) : Except Raised Results := do
  let canonical ← addressOperand o
  return { Results.completed false with R_WADDR := some (transform canonical) }

/-- ADEC (R85): no error. -/
def adec (_ : Configuration) (o : Operands) : Except Raised Results :=
  return { Results.completed false with R_ADDR := some (restoreAddress o.WADDR) }

/-- The meaning of AENC. -/
def execAenc (s : State) : Host.Outcome State Fault Refusal := runOperation aenc s

/-- The meaning of ADEC. -/
def execAdec (s : State) : Host.Outcome State Fault Refusal := runOperation adec s

end Sys2Proof.Machine
end

