-- ==== Sys2Proof/Machine/Checksum.lean ====
section
/-! DEFINITION. ChecksumEngine and the operation CSUM (spec/42_checksum.md). -/

namespace Sys2Proof.Machine

/-- `checksum(address, cc, len, payload)` (R111): the running exclusive or, in that order. -/
def checksum (address : Vector Byte 6) (cc len : Byte) (payload : List Byte) : Byte :=
  xorAll (address.toList ++ [cc] ++ [len] ++ payload)

/-- CSUM (R112): the declared length is taken as given (R113). -/
def csum (_ : Configuration) (o : Operands) : Except Raised Results := do
  payloadBound o.DLEN.toNat
  return { Results.completed false with
    R_CSCALC := some (checksum o.WADDR o.CC o.LEN (presentedData o)) }

/-- The meaning of CSUM. -/
def execCsum (s : State) : Host.Outcome State Fault Refusal := runDataOperation csum s

end Sys2Proof.Machine
end

