-- ==== Sys2Proof/Machine/Builder.lean ====
section
/-! DEFINITION. FrameBuilder: emission and the operations BREAD, BWRITE, BMREAD, BBCAST and BCTRL
(spec/43_frame_builder.md). -/

namespace Sys2Proof.Machine

/-- The bytes of a frame (30_encoding.md R52), the length byte and the checksum made from the same
payload (R122). -/
def frameBytes (wire : Vector Byte 6) (cc : Byte) (payload : List Byte) : List Byte :=
  let len : Byte := BitVec.ofNat 8 payload.length
  [startMarker] ++ wire.toList ++ [cc] ++ [len] ++ payload ++ [checksum wire cc len payload]
    ++ [endMarker]

/-- `emit(w, cc, p)` (R122): `TXBUF` is written once, from offset 0, and `TXLEN` with it
(20_memory.md R41). -/
def emit (wire : Vector Byte 6) (cc : Byte) (payload : List Byte) : Results :=
  { Results.completed false with
    TXLEN := some (BitVec.ofNat 16 (11 + payload.length))
    TXBUF := Memory.write .txbuf [] 0 (frameBytes wire cc payload) }

/-- The broadcast wire address (R126). -/
def broadcastWire : Vector Byte 6 := Vector.replicate 6 0

/-- `CC_CONTROL` (R127). -/
def controlCC (g : Configuration) : Byte :=
  match g.VARIANT with
  | .legacy => g.LEGACY_CONTROL_CC
  | .revised => revisedControlCC

/-- The first `n` identifier slots, in order. -/
def firstSlots (n : Nat) : List (Fin 64) := (List.finRange 64).take n

/-- BREAD (R123). -/
def bread (g : Configuration) (o : Operands) : Except Raised Results := do
  let canonical ← addressOperand o
  let id ← identifierOperand g.VARIANT o 0
  return emit (transform canonical) readCC id

/-- BWRITE (R124). -/
def bwrite (g : Configuration) (o : Operands) : Except Raised Results := do
  let canonical ← addressOperand o
  let id ← identifierOperand g.VARIANT o 0
  payloadBound (idw g.VARIANT + o.DLEN.toNat)
  return emit (transform canonical) o.CC (id ++ presentedData o)

/-- BMREAD (R125), its checks in the order of R121. -/
def bmread (g : Configuration) (o : Operands) : Except Raised Results := do
  let canonical ← addressOperand o
  require (decide (o.NID.toNat ≤ MAXID))
    ⟨.payloadTooLong, BitVec.ofNat 16 (o.NID.toNat * idw g.VARIANT), 255⟩
  let ids ← identifierOperands g.VARIANT o (firstSlots o.NID.toNat)
  payloadBound (o.NID.toNat * idw g.VARIANT)
  return emit (transform canonical) readCC ids.flatten

/-- BBCAST (R126). -/
def bbcast (_ : Configuration) (o : Operands) : Except Raised Results := do
  payloadBound o.DLEN.toNat
  return emit broadcastWire o.CC (presentedData o)

/-- BCTRL (R128). -/
def bctrl (g : Configuration) (o : Operands) : Except Raised Results := do
  let canonical ← addressOperand o
  let id ← identifierOperand g.VARIANT o 0
  return emit (transform canonical) (controlCC g) (id ++ [o.CMDB])

/-- The meaning of BREAD. -/
def execBread (s : State) : Host.Outcome State Fault Refusal := runOperation bread s

/-- The meaning of BWRITE. -/
def execBwrite (s : State) : Host.Outcome State Fault Refusal := runDataOperation bwrite s

/-- The meaning of BMREAD. -/
def execBmread (s : State) : Host.Outcome State Fault Refusal := runOperation bmread s

/-- The meaning of BBCAST. -/
def execBbcast (s : State) : Host.Outcome State Fault Refusal := runDataOperation bbcast s

/-- The meaning of BCTRL. -/
def execBctrl (s : State) : Host.Outcome State Fault Refusal := runOperation bctrl s

end Sys2Proof.Machine
end

