-- ==== Sys2Proof/Machine/Registry.lean ====
section
/-! DEFINITION. FieldRegistry: the look-up, the decoding of one value, the walk over a payload, and the
operations RLOOK and FEXT (spec/41_field_registry.md). -/

namespace Sys2Proof.Machine

/-- `lookup(id)` (R94): the descriptor whose key equals `id` byte for byte. In a table with a key
twice, which R92 puts out of scope, it takes the first (notes/assumptions/9.md). -/
def lookup (g : Configuration) (id : List Byte) : Option Descriptor :=
  ((g.REGISTRY.rows g.VARIANT).find? (fun row => row.key == id)).map RegistryRow.desc

/-- The label of a custom decode rule (R98). -/
def CustomDecode.label (c : CustomDecode) (raw : Nat) : String :=
  (c.cases.lookup raw).getD c.otherwise

/-- The decoded value (R97). -/
def decodeValue (d : Descriptor) (raw : Nat) : FieldValue :=
  match d.customDecode with
  | none => .numeric (milliOf raw d.scale)
  | some c => .status (CustomDecode.label c raw)

/-- The record of a known identifier (R100), from its value bytes (R96). -/
def fieldRecord (id : List Byte) (d : Descriptor) (value : List Byte) : FieldRecord where
  id := id
  name := d.name
  unit := d.unit
  raw := uint value d.byteOrder
  val := decodeValue d (uint value d.byteOrder)

/-- The working state of extraction: the cursor `pos` (10_state.md R21) and the records so far. -/
structure Cursor where
  pos : Nat
  out : List FieldRecord
  deriving DecidableEq, Repr

/-- One pass of the extraction loop (R101); `none` is "stop". -/
def extractPass (g : Configuration) (payload : List Byte) (c : Cursor) : Option Cursor :=
  let w := idw g.VARIANT
  if payload.length < c.pos + w then none
  else
    let id := slice payload c.pos (c.pos + w)
    match lookup g id with
    | none => some { c with pos := c.pos + w }
    | some d =>
      if payload.length < c.pos + w + d.byteWidth then none
      else
        some { pos := c.pos + w + d.byteWidth
               out := c.out ++ [fieldRecord id d
                 (slice payload (c.pos + w) (c.pos + w + d.byteWidth))] }

/-- The loop (R101), for at most `fuel` passes. -/
def extractLoop (g : Configuration) (payload : List Byte) : Nat → Cursor → List FieldRecord
  | 0, c => c.out
  | fuel + 1, c =>
    match extractPass g payload c with
    | none => c.out
    | some c' => extractLoop g payload fuel c'

/-- `extract(p)` (R101). Every pass but the last adds at least `IDW` to `pos`, so the passes allowed
here are never used up (R108; notes/assumptions/13.md). -/
def extract (g : Configuration) (payload : List Byte) : List FieldRecord :=
  extractLoop g payload (payload.length + 1) { pos := 0, out := [] }

/-- The mapping view of a record list (R107): the last record of an identifier. -/
def fieldOf (records : List FieldRecord) (id : List Byte) : Option FieldRecord :=
  records.reverse.find? (fun f => f.id == id)

/-- RLOOK (R95). -/
def rlook (g : Configuration) (o : Operands) : Except Raised Results := do
  let id ← identifierOperand g.VARIANT o 0
  return match lookup g id with
    | none => { Results.completed false with R_HIT := some 0 }
    | some d => { Results.completed false with R_HIT := some 1, R_DESC := some d }

/-- The result registers of an extraction (R105; 44_frame_parser.md R150), over those already set. -/
def withFields (records : List FieldRecord) (r : Results) : Results :=
  { r with R_NF := some (BitVec.ofNat 8 records.length), R_F := records }

/-- FEXT (R105). -/
def fext (g : Configuration) (o : Operands) : Except Raised Results := do
  payloadBound o.DLEN.toNat
  return withFields (extract g (presentedData o)) (Results.completed false)

/-- The meaning of RLOOK. -/
def execRlook (s : State) : Host.Outcome State Fault Refusal := runOperation rlook s

/-- The meaning of FEXT. -/
def execFext (s : State) : Host.Outcome State Fault Refusal := runDataOperation fext s

end Sys2Proof.Machine
end

