-- ==== Sys2Proof/Machine/Parser.lean ====
section
/-! DEFINITION. FrameParser: the seven stages and the operation PARSE (spec/44_frame_parser.md). -/

namespace Sys2Proof.Machine

/-- The stages of PARSE (R140; 10_state.md R21). -/
inductive Stage where
  | lengthFloor
  | delimiters
  | structuralSlice
  | integrity
  | addressRestore
  | payloadDecode
  | result
  deriving DecidableEq, Repr

/-- The stage numbers 1..7. -/
def Stage.number : Stage → Nat
  | .lengthFloor => 1
  | .delimiters => 2
  | .structuralSlice => 3
  | .integrity => 4
  | .addressRestore => 5
  | .payloadDecode => 6
  | .result => 7

/-- The stages in the order they run (R140). -/
def Stage.inOrder : List Stage :=
  [.lengthFloor, .delimiters, .structuralSlice, .integrity, .addressRestore, .payloadDecode, .result]

/-- The working registers of one PARSE: the stage and what the stages so far have taken
from the buffer. They exist inside the operation only (10_state.md R21); each is written by its stage
before a later stage reads it. -/
structure ParseRegs where
  stage : Stage
  address : Vector Byte 6
  cc : Byte
  len : Byte
  payload : List Byte
  csrx : Byte
  csCalc : Byte
  canon : Vector Byte 12
  fields : List FieldRecord
  results : Results
  deriving DecidableEq, Repr

/-- The working registers when PARSE starts. -/
def ParseRegs.start : ParseRegs where
  stage := .lengthFloor
  address := Vector.replicate 6 0
  cc := 0
  len := 0
  payload := []
  csrx := 0
  csCalc := 0
  canon := Vector.replicate 12 0
  fields := []
  results := Results.completed false

/-- Stage 1 (R141). -/
def stageFloor (g : Configuration) (b : List Byte) (r : ParseRegs) : Except Raised ParseRegs := do
  require (decide (minLen g.VARIANT ≤ b.length))
    ⟨.frameTooShort, BitVec.ofNat 16 b.length, BitVec.ofNat 16 (minLen g.VARIANT)⟩
  return r

/-- Stage 2 (R142): one error for either marker or both. -/
def stageDelimiters (b : List Byte) (r : ParseRegs) : Except Raised ParseRegs := do
  require (decide (byteAt b 0 = startMarker ∧ byteAt b (b.length - 1) = endMarker))
    ⟨.delimiterMismatch, (byteAt b 0).zeroExtend 16, (byteAt b (b.length - 1)).zeroExtend 16⟩
  return r

/-- The total length a declared length tells (R144): not reduced modulo 256. -/
def expectedTotal (len : Byte) : Nat := 9 + len.toNat + 2

/-- The info word of a buffer length `n` (R144; 60_exceptions.md R162, "16 bits each"): `n` itself
where it fits. A longer length cannot be presented to the block; it occurs in the verdict the host
gives by R146 (70_reset_and_hazards.md R199), and there the spec states no info word, so the word is
left free (DESIGN CHOICE, safe: notes/assumptions/18.md). -/
def lengthWord (n : Nat) : Half :=
  if n < 65536 then BitVec.ofNat 16 n else Config.overlongLengthWord n

/-- Stage 3 (R143, R144): the comparison before the payload and checksum slices (90_conflicts.md
C10). -/
def stageStructure (b : List Byte) (r : ParseRegs) : Except Raised ParseRegs := do
  let len := byteAt b 8
  require (decide (expectedTotal len = b.length))
    ⟨.lengthMismatch, BitVec.ofNat 16 (expectedTotal len), lengthWord b.length⟩
  return { r with
    address := Vector.ofFn fun i => byteAt b (1 + i.val)
    cc := byteAt b 7
    len := len
    payload := slice b 9 (9 + len.toNat)
    csrx := byteAt b (9 + len.toNat) }

/-- Stage 4 (R147): over the length byte read (42_checksum.md R113). -/
def stageIntegrity (r : ParseRegs) : Except Raised ParseRegs := do
  let csCalc := checksum r.address r.cc r.len r.payload
  require (decide (csCalc = r.csrx))
    ⟨.checksumMismatch, csCalc.zeroExtend 16, r.csrx.zeroExtend 16⟩
  return { r with csCalc := csCalc }

/-- Stage 7 (R150): the result registers. -/
def parseResults (g : Configuration) (r : ParseRegs) : Results :=
  withFields r.fields
    { Results.completed (ccKnownOf g.VARIANT r.cc) with
      R_ADDR := some r.canon
      R_CC := some r.cc
      R_PLEN := some r.len
      R_PAY := Memory.write .rpay [] 0 r.payload
      R_CSRX := some r.csrx
      R_CSCALC := some r.csCalc }

/-- The stage the register `stage` names: it passes, with the working registers it leaves, or fails
with its error. Stages 5, 6 and 7 cannot fail (R148, R149, R150). -/
def runStage (g : Configuration) (b : List Byte) (r : ParseRegs) : Except Raised ParseRegs :=
  match r.stage with
  | .lengthFloor => stageFloor g b r
  | .delimiters => stageDelimiters b r
  | .structuralSlice => stageStructure b r
  | .integrity => stageIntegrity r
  | .addressRestore => return { r with canon := restoreAddress r.address }
  | .payloadDecode => return { r with fields := extract g r.payload }
  | .result => return { r with results := parseResults g r }

/-- `stage <- n` and that stage, one after another; the first failure ends the operation (R140,
R170). -/
def runStages (g : Configuration) (b : List Byte) :
    List Stage → ParseRegs → Except Raised ParseRegs
  | [], r => .ok r
  | st :: rest, r => do
    let r' ← runStage g b { r with stage := st }
    runStages g b rest r'

/-- The whole machine over a received buffer (R151). -/
def parseBuffer (g : Configuration) (b : List Byte) : Except Raised Results := do
  let r ← runStages g b Stage.inOrder ParseRegs.start
  return r.results

/-- PARSE (R151). -/
def parse (g : Configuration) (o : Operands) : Except Raised Results :=
  parseBuffer g (presentedData o)

/-- The meaning of PARSE. -/
def execParse (s : State) : Host.Outcome State Fault Refusal := runDataOperation parse s

end Sys2Proof.Machine
end

