-- ==== Sys2Proof/Machine/Dispatch.lean ====
section
/-! DEFINITION. One arm per instruction (spec/30_encoding.md R62). -/

namespace Sys2Proof.Machine

def exec (i : Instr) (s : State) : Host.Outcome State Fault Refusal :=
  match i with
  | .aenc => Sys2Proof.Machine.execAenc s
  | .adec => Sys2Proof.Machine.execAdec s
  | .rlook => Sys2Proof.Machine.execRlook s
  | .fext => Sys2Proof.Machine.execFext s
  | .csum => Sys2Proof.Machine.execCsum s
  | .bread => Sys2Proof.Machine.execBread s
  | .bwrite => Sys2Proof.Machine.execBwrite s
  | .bmread => Sys2Proof.Machine.execBmread s
  | .bbcast => Sys2Proof.Machine.execBbcast s
  | .bctrl => Sys2Proof.Machine.execBctrl s
  | .parse => Sys2Proof.Machine.execParse s

end Sys2Proof.Machine
end

