-- ==== Sys2Proof/Machine/Step.lean ====
section
/-! DEFINITION. One step: one `start` pulse (spec/70_reset_and_hazards.md R194). -/

namespace Sys2Proof.Machine

/-- The operation the command word selects, run as one atomic transition (R194; 10_state.md R12); a
reserved word is the error `IllegalOp` (30_encoding.md R63). -/
def step (s : State) : Host.Outcome State Fault Refusal :=
  match decode (commandWord s) with
  | .ok i => exec i s
  | .error _ => .next (illegalOp s)

/-- The command word `w` in `OPC`, where the next `start` pulse takes its operation from (R60): the
host's own way of selecting an operation (notes/assumptions/7.md). -/
def State.withFetchWord (s : State) (_nbits w : Nat) : State :=
  { s with opr := { s.opr with OPC := BitVec.ofNat 8 w } }

end Sys2Proof.Machine
end

