-- ==== Sys2Proof/Machine/HostPort.lean ====
section
/-! DEFINITION. The host's port: construction (spec/70_reset_and_hazards.md R190, R191), writing an
operand register (10_state.md R15) and reading the variant register (R13) or a result register (R17,
R20). Pulsing `start` is
`step` (70_reset_and_hazards.md R194). -/

namespace Sys2Proof.Machine

/-- Construct a block (R190, R191, R193): the strap must be driven (93_implementation_defined.md U10)
and the registry well-formed (U12). The parameter `LEGACY_CONTROL_CC` may be overridden, 0x02 being
its default (00_scope.md R6; U13). -/
def construct (variantSel : Option (BitVec 1)) (r : Registry)
    (legacyControlCC : Byte := defaultLegacyControlCC) : Host.Outcome State Fault Refusal :=
  match variantSel with
  | none => .refused .variantUndriven
  | some b =>
    if r.wf then
      .next (State.constructed
        { VARIANT := variantOfBit b, REGISTRY := r, LEGACY_CONTROL_CC := legacyControlCC })
    else .refused .registryIllFormed

/-- A write of the host, one form per operand register (10_state.md R15). -/
inductive HostWrite where
  | opc (b : Byte)
  | aLen (b : Byte)
  | aCh (i : Fin 12) (b : Byte)
  | waddr (i : Fin 6) (b : Byte)
  | cc (b : Byte)
  | len (b : Byte)
  | cmdb (b : Byte)
  | nid (b : Byte)
  | idLen (k : Fin 64) (b : Byte)
  | idB (k : Fin 64) (j : Fin 6) (b : Byte)
  | dlen (h : Half)
  | dbuf (off : Nat) (b : Byte)
  deriving DecidableEq, Repr

/-- Perform a write of the host. The register holds the value until the host writes it again (R15);
more than `DCAP` bytes cannot be presented (R16, U11), and `DBUF` has no offset at or above `DCAP`
(20_memory.md R30). -/
def hostWrite (w : HostWrite) (s : State) : Host.Outcome State Fault Refusal :=
  let o := s.opr
  match w with
  | .opc b => .next { s with opr := { o with OPC := b } }
  | .aLen b => .next { s with opr := { o with A_LEN := b } }
  | .aCh i b => .next { s with opr := { o with A_CH := o.A_CH.set i b } }
  | .waddr i b => .next { s with opr := { o with WADDR := o.WADDR.set i b } }
  | .cc b => .next { s with opr := { o with CC := b } }
  | .len b => .next { s with opr := { o with LEN := b } }
  | .cmdb b => .next { s with opr := { o with CMDB := b } }
  | .nid b => .next { s with opr := { o with NID := b } }
  | .idLen k b => .next { s with opr := { o with ID_LEN := o.ID_LEN.set k b } }
  | .idB k j b => .next { s with opr := { o with ID_B := o.ID_B.set k ((o.ID_B[k]).set j b) } }
  | .dlen h =>
    if h.toNat ≤ DCAP then .next { s with opr := { o with DLEN := h } }
    else .refused .dlenAboveDcap
  | .dbuf off b =>
    if off < DCAP then
      .next { s with opr := { o with DBUF := Memory.writeByte .dbuf o.DBUF off b } }
    else .fault (.noSuchAddress .dbuf off)

/-- What a read of the host gives. -/
inductive ReadValue where
  | byte (b : Byte)
  | half (h : Half)
  | bit (b : BitVec 1)
  | record (f : FieldRecord)
  | descriptor (d : Descriptor)
  deriving DecidableEq, Repr

/-- The value a result register holds; `none` where it holds no value (R20). -/
def ResultReg.value (r : Results) : ResultReg → Option ReadValue
  | .st => some (.byte r.ST)
  | .errc => some (.byte r.ERRC)
  | .einfo0 => some (.half r.EINFO0)
  | .einfo1 => some (.half r.EINFO1)
  | .txlen => r.TXLEN.map .half
  | .txbuf off => (Memory.read .txbuf r.TXBUF off).map .byte
  | .rWaddr i => r.R_WADDR.map fun w => .byte w[i]
  | .rAddr i => r.R_ADDR.map fun a => .byte a[i]
  | .rCc => r.R_CC.map .byte
  | .rPlen => r.R_PLEN.map .byte
  | .rPay off => (Memory.read .rpay r.R_PAY off).map .byte
  | .rCsrx => r.R_CSRX.map .byte
  | .rCscalc => r.R_CSCALC.map .byte
  | .rNf => r.R_NF.map .byte
  | .rF k => (r.R_F[k.val]?).map .record
  | .rHit => r.R_HIT.map .bit
  | .rDesc => r.R_DESC.map .descriptor

/-- The address fault of a read beyond a buffer (20_memory.md R30). -/
def ResultReg.addressFault : ResultReg → Option Fault
  | .txbuf off => if off < TXCAP then none else some (.noSuchAddress .txbuf off)
  | .rPay off => if off < PAYCAP then none else some (.noSuchAddress .rpay off)
  | _ => none

/-- The value of a result register (R17). Reading one that holds no value is a fault (R20, U6). -/
def ResultReg.read (r : Results) (reg : ResultReg) : Except Fault ReadValue :=
  match ResultReg.addressFault reg with
  | some f => .error f
  | none =>
    match ResultReg.value r reg with
    | some v => .ok v
    | none => .error (.noValue reg)

/-- The registers the host can read: the variant register (R13, "host: read-only") and the result
registers (R17). -/
inductive HostReg where
  | variant
  | result (reg : ResultReg)
  deriving DecidableEq, Repr

/-- A read of the host. It has no side effect (20_memory.md R38). -/
def hostRead (reg : HostReg) (s : State) : Except Fault ReadValue :=
  match reg with
  | .variant => .ok (.bit (variantBit s.cfg.VARIANT))
  | .result r => ResultReg.read s.res r

end Sys2Proof.Machine
end

