-- ==== Sys2Proof/Safety.lean ====
section
/-! DEFINITION. What counts as a safe run: the invariant of the block's state, in the terms the
statements use. -/

namespace Sys2Proof.Machine

/-- A result buffer holds exactly the bytes of a sequence, from offset 0, and no other byte. -/
def Memory.Holds (sp : Space) (m : Memory) (bytes : List Byte) : Prop :=
  ∀ a, Memory.read sp m a = bytes[a]?

/-- A byte sequence in the frame format (spec/30_encoding.md R50 to R52) with a right checksum
(42_checksum.md R110). -/
structure IsFrame (f : List Byte) : Prop where
  length : f.length = 9 + (byteAt f 8).toNat + 2
  startMark : byteAt f 0 = startMarker
  endMark : byteAt f (f.length - 1) = endMarker
  check : byteAt f (f.length - 2) = xorAll (slice f 1 (f.length - 2))

/-- A field record that decodes value bytes of its identifier by the registry's descriptor
(41_field_registry.md R100), with `raw` in its width (10_state.md R19). -/
def FieldRecord.Decoded (g : Configuration) (f : FieldRecord) : Prop :=
  f.id.length = idw g.VARIANT ∧ f.raw < 256 ^ MAXW ∧
    ∃ d value, lookup g f.id = some d ∧ value.length = d.byteWidth ∧ f = fieldRecord f.id d value

/-- The result registers agree with one another and with the rules that write them. -/
structure Results.Consistent (g : Configuration) (r : Results) : Prop where
  /-- Bits 7:3 of `ST` read as 0 (10_state.md R18). -/
  reserved : reservedBits r.ST = 0
  /-- `ERR` = 1 if and only if `ERRC` is not 0 (R18). -/
  errIff : errFlag r.ST = true ↔ r.ERRC ≠ 0
  /-- `ERRC` values 9..255 are never written (60_exceptions.md R161). -/
  errcRange : r.ERRC.toNat ≤ 8
  /-- After an error no other result register holds a value and `CC_KNOWN` is 0 (R165). -/
  onError : errFlag r.ST = true →
    ccKnownFlag r.ST = false ∧ r = Results.noValues r.ST r.ERRC r.EINFO0 r.EINFO1
  /-- The info words are 0 when the operation succeeded (10_state.md R17). -/
  onSuccess : errFlag r.ST = false → r.EINFO0 = 0 ∧ r.EINFO1 = 0
  /-- `TXBUF` is in its canonical form. -/
  txbufWf : Memory.wf .txbuf r.TXBUF
  /-- `R_PAY` is in its canonical form. -/
  rpayWf : Memory.wf .rpay r.R_PAY
  /-- A built frame is a frame of `TXLEN` bytes (R17; 43_frame_builder.md R129). -/
  frame : ∀ n, r.TXLEN = some n →
    ∃ f, IsFrame f ∧ f.length = n.toNat ∧ Memory.Holds .txbuf r.TXBUF f
  /-- Without a length, `TXBUF` holds no value. -/
  noFrame : r.TXLEN = none → r.TXBUF = []
  /-- The raw payload has `R_PLEN` bytes (R17). -/
  payload : ∀ n, r.R_PLEN = some n →
    ∃ p : List Byte, p.length = n.toNat ∧ Memory.Holds .rpay r.R_PAY p
  /-- Without a length, `R_PAY` holds no value. -/
  noPayload : r.R_PLEN = none → r.R_PAY = []
  /-- There are `R_NF` records, at most `MAXF` (R17, R19). -/
  fieldCount : ∀ n, r.R_NF = some n → r.R_F.length = n.toNat ∧ n.toNat ≤ MAXF
  /-- Without a count, no record holds a value. -/
  noFields : r.R_NF = none → r.R_F = []
  /-- Every record is decoded by the registry. -/
  records : ∀ f ∈ r.R_F, FieldRecord.Decoded g f
  /-- A parsed frame's two checksums are equal (44_frame_parser.md R150). -/
  checksums : ∀ x, r.R_CSRX = some x → r.R_CSCALC = some x
  /-- `R_DESC` holds a value exactly when `R_HIT` = 1 (R17; 41_field_registry.md R95). -/
  hit : r.R_DESC.isSome = true ↔ r.R_HIT = some 1

/-- The invariant: the registry is well-formed (R92), no more data is presented than there is room
for (R16), `DBUF` is in its canonical form, and the result registers are consistent. -/
structure State.Inv (s : State) : Prop where
  registry : s.cfg.REGISTRY.wf = true
  dlen : s.opr.DLEN.toNat ≤ DCAP
  dbufWf : Memory.wf .dbuf s.opr.DBUF
  results : Results.Consistent s.cfg s.res

/-- One action of the outside world on a block: a write of the host or a `start` pulse. -/
inductive Action where
  | write (w : HostWrite)
  | start
  deriving DecidableEq, Repr

/-- Perform an action. -/
def act (s : State) : Action → Host.Outcome State Fault Refusal
  | .write w => hostWrite w s
  | .start => step s

/-- `Runs s t`: actions that do not stop lead from `s` to `t` (70_reset_and_hazards.md R194). -/
inductive Runs (s : State) : State → Prop where
  | refl : Runs s s
  | act (t u : State) (a : Action) (hs : Runs s t) (h : act t a = .next u) : Runs s u

/-- The states a block can be in: constructed with any strap, a well-formed registry and any value of
the parameter (R190, 00_scope.md R6), then run. -/
def Reachable (t : State) : Prop :=
  ∃ sel r legacyControlCC s, construct sel r legacyControlCC = .next s ∧ Runs s t

end Sys2Proof.Machine
end

