-- ==== Sys2Proof/Certificates/Slice0/Obligations.lean ====
section
/-! DEFINITION. The statements for the provers, over a vocabulary of their own that spells the spec's
rules out a second time, apart from the definitions they are about. -/

namespace Sys2Proof.Claims

open Sys2Proof.Machine

/-- `ch` is the code of a hexadecimal digit of value `n`, of either case (spec/00_scope.md R8). -/
def HexDigit (ch : Byte) (n : Nat) : Prop :=
  (0x30 ≤ ch.toNat ∧ ch.toNat ≤ 0x39 ∧ ch.toNat = 0x30 + n) ∨
  (0x41 ≤ ch.toNat ∧ ch.toNat ≤ 0x46 ∧ ch.toNat + 10 = 0x41 + n) ∨
  (0x61 ≤ ch.toNat ∧ ch.toNat ≤ 0x66 ∧ ch.toNat + 10 = 0x61 + n)

/-- `ch` is the code of the upper-case hexadecimal digit of value `n` (R8). -/
def UpperHexDigit (ch : Byte) (n : Nat) : Prop :=
  (n ≤ 9 ∧ ch.toNat = 0x30 + n) ∨ (10 ≤ n ∧ n ≤ 15 ∧ ch.toNat + 10 = 0x41 + n)

/-- The address string is valid and `wire` is its wire form (40_address_codec.md R81 to R83). -/
def AddressString (o : Operands) (wire : Vector Byte 6) : Prop :=
  o.A_LEN = 12 ∧ ∀ i : Fin 6, ∃ hi lo,
    HexDigit (o.A_CH[2 * i.val]) hi ∧ HexDigit (o.A_CH[2 * i.val + 1]) lo ∧
      (wire[5 - i.val]).toNat = 0xFF - (16 * hi + lo)

/-- The address string is malformed (R81). -/
def Malformed (o : Operands) : Prop :=
  o.A_LEN ≠ 12 ∨ ∃ i : Fin 12, ∀ n, ¬ HexDigit (o.A_CH[i]) n

/-- `address` is the upper-case string of the wire address `wire` (R85). -/
def RestoredAddress (wire : Vector Byte 6) (address : Vector Byte 12) : Prop :=
  ∀ i : Fin 6, ∃ hi lo,
    UpperHexDigit (address[2 * i.val]) hi ∧ UpperHexDigit (address[2 * i.val + 1]) lo ∧
      16 * hi + lo = 0xFF - (wire[5 - i.val]).toNat

/-- `upper` is the string `chars` with small letters replaced by capitals (R86). -/
def UpperOf (chars upper : Vector Byte 12) : Prop :=
  ∀ i : Fin 12, ∃ n, HexDigit (chars[i]) n ∧ UpperHexDigit (upper[i]) n

/-- `bytes` is what the host presents in `DBUF[0 .. DLEN)` (10_state.md R15). -/
def Presents (o : Operands) (bytes : List Byte) : Prop :=
  bytes.length = o.DLEN.toNat ∧
    ∀ a, a < bytes.length → Memory.read .dbuf o.DBUF a = bytes[a]?

/-- The state a failed operation leaves (60_exceptions.md R165): `ST` = 0x03, code and info words,
and no value in any other result register; configuration and operands as they were. -/
def failed (s : State) (code : Byte) (info0 info1 : Half) : State :=
  { s with res := Results.noValues 0x03 code info0 info1 }

/-- The exclusive or of a byte sequence. -/
def xorOf (bytes : List Byte) : Byte := bytes.foldr (fun b acc => b ^^^ acc) 0

/-- The checksum of a frame (42_checksum.md R111). -/
def checkOf (wire : Vector Byte 6) (cc len : Byte) (payload : List Byte) : Byte :=
  xorOf (wire.toList ++ [cc, len] ++ payload)

/-- The frame (30_encoding.md R52) of a wire address, a control code and a payload. -/
def wireFrame (wire : Vector Byte 6) (cc : Byte) (payload : List Byte) : List Byte :=
  [0x68] ++ wire.toList ++ [cc, BitVec.ofNat 8 payload.length] ++ payload ++
    [checkOf wire cc (BitVec.ofNat 8 payload.length) payload, 0x16]

/-- The operation completes and leaves exactly a built frame (43_frame_builder.md R122, R129):
`TXLEN` and `TXBUF` hold it, every other result register holds no value, and configuration and
operands are as they were. -/
def Builds (i : Instr) (s : State) (wire : Vector Byte 6) (cc : Byte) (payload : List Byte) : Prop :=
  ∃ m, exec i s = .next { s with res := { Results.noValues 0x01 0 0 0 with
      TXLEN := some (BitVec.ofNat 16 (11 + payload.length)), TXBUF := m } } ∧
    Memory.wf .txbuf m ∧ Memory.Holds .txbuf m (wireFrame wire cc payload)

/-- The `IDW` bytes of the identifier in slot `k` (41_field_registry.md R109). -/
def slotBytes (s : State) (k : Fin 64) : List Byte :=
  (s.opr.ID_B[k]).toList.take (idw s.cfg.VARIANT)

/-- The identifier in slot `k` is well-shaped (R109). -/
def WellShaped (s : State) (k : Fin 64) : Prop := (s.opr.ID_LEN[k]).toNat = idw s.cfg.VARIANT

/-- The raw value of value bytes, as the sums of 00_scope.md R9. -/
def rawOf (order : ByteOrder) (value : List Byte) : Nat :=
  match order with
  | .big => ∑ i : Fin value.length, (value[i]).toNat * 256 ^ (value.length - 1 - i.val)
  | .little => ∑ i : Fin value.length, (value[i]).toNat * 256 ^ i.val

/-- The record of a known identifier (41_field_registry.md R100), its value as R97 to R99 say: the
nearest number of thousandths of the exact product, ties up; or the label of the custom rule. -/
structure DecodesTo (id : List Byte) (d : Descriptor) (value : List Byte) (f : FieldRecord) :
    Prop where
  id : f.id = id
  name : f.name = d.name
  unit : f.unit = d.unit
  raw : f.raw = rawOf d.byteOrder value
  linear : d.customDecode = none → ∃ milli, f.val = .numeric milli ∧
    milli * (2 * (d.scale.sdPred + 1)) ≤
      2 * f.raw * d.scale.sn * 1000 + (d.scale.sdPred + 1) ∧
    2 * f.raw * d.scale.sn * 1000 + (d.scale.sdPred + 1) <
      (milli + 1) * (2 * (d.scale.sdPred + 1))
  listed : ∀ c pre label post, d.customDecode = some c → c.cases = pre ++ (f.raw, label) :: post →
    f.raw ∉ pre.map Prod.fst → f.val = .status label
  unlisted : ∀ c, d.customDecode = some c → f.raw ∉ c.cases.map Prod.fst →
    f.val = .status c.otherwise

/-- The walk over a payload from a cursor position (R101), as a relation: the records it makes. -/
inductive Walk (g : Configuration) (p : List Byte) : Nat → List FieldRecord → Prop where
  /-- Fewer than `IDW` bytes remain (R106). -/
  | ended {pos : Nat} (h : p.length < pos + idw g.VARIANT) : Walk g p pos []
  /-- An identifier that is not in the registry: skipped, nothing recorded (R103). -/
  | unknown {pos : Nat} {out : List FieldRecord} (h : pos + idw g.VARIANT ≤ p.length)
      (hl : lookup g ((p.drop pos).take (idw g.VARIANT)) = none)
      (rest : Walk g p (pos + idw g.VARIANT) out) : Walk g p pos out
  /-- A known identifier with too few value bytes: stop (R104). -/
  | partialValue {pos : Nat} {d : Descriptor} (h : pos + idw g.VARIANT ≤ p.length)
      (hl : lookup g ((p.drop pos).take (idw g.VARIANT)) = some d)
      (hw : p.length < pos + idw g.VARIANT + d.byteWidth) : Walk g p pos []
  /-- A known identifier with its value: one record (R102). -/
  | known {pos : Nat} {d : Descriptor} {f : FieldRecord} {out : List FieldRecord}
      (hl : lookup g ((p.drop pos).take (idw g.VARIANT)) = some d)
      (hw : pos + idw g.VARIANT + d.byteWidth ≤ p.length)
      (hf : DecodesTo ((p.drop pos).take (idw g.VARIANT)) d
        ((p.drop (pos + idw g.VARIANT)).take d.byteWidth) f)
      (rest : Walk g p (pos + idw g.VARIANT + d.byteWidth) out) : Walk g p pos (f :: out)

/-- The result registers an operation's row of 10_state.md R17 lists, the status and error registers
apart. -/
def Lists : Instr → ResultReg → Prop
  | .aenc, .rWaddr _ => True
  | .adec, .rAddr _ => True
  | .rlook, .rHit => True
  | .rlook, .rDesc => True
  | .fext, .rNf => True
  | .fext, .rF _ => True
  | .csum, .rCscalc => True
  | .bread, .txlen | .bwrite, .txlen | .bmread, .txlen | .bbcast, .txlen | .bctrl, .txlen => True
  | .bread, .txbuf _ | .bwrite, .txbuf _ | .bmread, .txbuf _ | .bbcast, .txbuf _
  | .bctrl, .txbuf _ => True
  | .parse, .rAddr _ | .parse, .rCc | .parse, .rPlen | .parse, .rPay _ | .parse, .rCsrx
  | .parse, .rCscalc | .parse, .rNf | .parse, .rF _ => True
  | _, _ => False

/-- The status and error registers (70_reset_and_hazards.md R192, rows `ST` to `EINFO1`). -/
def IsStatus : ResultReg → Prop
  | .st | .errc | .einfo0 | .einfo1 => True
  | _ => False

/-- Two operand sets agree on the canonical address string: its length and its meaningful
characters (10_state.md R15). -/
def AgreeAddress (o o' : Operands) : Prop :=
  o'.A_LEN = o.A_LEN ∧ ∀ i : Fin 12, i.val < o.A_LEN.toNat → o'.A_CH[i] = o.A_CH[i]

/-- Two operand sets agree on the identifier in slot `k`: its length and its meaningful bytes. -/
def AgreeSlot (o o' : Operands) (k : Fin 64) : Prop :=
  o'.ID_LEN[k] = o.ID_LEN[k] ∧
    ∀ j : Fin 6, j.val < (o.ID_LEN[k]).toNat → (o'.ID_B[k])[j] = (o.ID_B[k])[j]

/-- Two operand sets agree on the presented data. -/
def AgreeData (o o' : Operands) : Prop :=
  o'.DLEN = o.DLEN ∧
    ∀ a, a < o.DLEN.toNat → Memory.read .dbuf o'.DBUF a = Memory.read .dbuf o.DBUF a

/-- Two operand sets agree on the operand registers an operation's rule names (10_state.md R15,
column "used by"). -/
def AgreeOn (o o' : Operands) : Instr → Prop
  | .aenc => AgreeAddress o o'
  | .adec => o'.WADDR = o.WADDR
  | .rlook => AgreeSlot o o' 0
  | .fext => AgreeData o o'
  | .csum => o'.WADDR = o.WADDR ∧ o'.CC = o.CC ∧ o'.LEN = o.LEN ∧ AgreeData o o'
  | .bread => AgreeAddress o o' ∧ AgreeSlot o o' 0
  | .bwrite => AgreeAddress o o' ∧ AgreeSlot o o' 0 ∧ o'.CC = o.CC ∧ AgreeData o o'
  | .bmread => AgreeAddress o o' ∧ o'.NID = o.NID ∧
      ∀ k : Fin 64, k.val < o.NID.toNat → AgreeSlot o o' k
  | .bbcast => o'.CC = o.CC ∧ AgreeData o o'
  | .bctrl => AgreeAddress o o' ∧ AgreeSlot o o' 0 ∧ o'.CMDB = o.CMDB
  | .parse => AgreeData o o'

/-- The operations that read `DBUF` (20_memory.md R30). -/
def ReadsData : Instr → Prop
  | .fext | .csum | .bwrite | .bbcast | .parse => True
  | _ => False

/-- The five builders. -/
def IsBuilder : Instr → Prop
  | .bread | .bwrite | .bmread | .bbcast | .bctrl => True
  | _ => False

end Sys2Proof.Claims

open Sys2Proof Sys2Proof.Machine Sys2Proof.Claims

/-! ### Reset, the command word and the step -/

/-- R192: after reset the status and error registers are 0, `VARIANT` reads as the strap, `REGISTRY`
is its built-in contents, and reading any other result register faults for want of a value. The
parameter `LEGACY_CONTROL_CC` has its default (43_frame_builder.md R127; log entry 3). -/
def Obligations.ResetLeavesNoResults : Prop :=
  State.reset.res.ST = 0x00 ∧ State.reset.res.ERRC = 0 ∧ State.reset.res.EINFO0 = 0 ∧
  State.reset.res.EINFO1 = 0 ∧ hostRead .variant State.reset = .ok (.bit Config.variantSel) ∧
  State.reset.cfg.REGISTRY = Config.builtInRegistry ∧ State.reset.cfg.LEGACY_CONTROL_CC = 0x02 ∧
  ∀ reg, ¬ IsStatus reg → ResultReg.addressFault reg = none →
    hostRead (.result reg) State.reset = .error (.noValue reg)

/-- R191, R193 with 93_implementation_defined.md U10, U12 and U13: construction with a driven strap
(0 Legacy, 1 Revised), a well-formed registry and any value of `LEGACY_CONTROL_CC` (0x02 where none is
given) gives a block of that configuration in which no result holds a value. That the block meets the
invariant rests on the model's reset values of `DLEN` and `DBUF` (log entries 4 and 5). Without a
strap or a well-formed registry there is no block. -/
def Obligations.ConstructionTakesTheStrap : Prop :=
  (∀ (b : BitVec 1) (r : Registry) (cc : Byte), r.wf = true → ∃ s,
    construct (some b) r cc = .next s ∧
    s.cfg.VARIANT = (if b = 1 then .revised else .legacy) ∧ s.cfg.REGISTRY = r ∧
    s.cfg.LEGACY_CONTROL_CC = cc ∧ s.res = Results.noValues 0 0 0 0 ∧ s.Inv) ∧
  (∀ (sel : Option (BitVec 1)) (r : Registry), construct sel r = construct sel r 0x02) ∧
  (∀ (b : BitVec 1) (r : Registry) (cc : Byte), r.wf = false →
    construct (some b) r cc = .refused .registryIllFormed) ∧
  ∀ (r : Registry) (cc : Byte), construct none r cc = .refused .variantUndriven

/-- The invariant holds at reset. Its clauses on `DLEN` and `DBUF` rest on the model's reset values
(log entries 4 and 5). -/
def Obligations.ResetMeetsTheInvariant : Prop := State.reset.Inv

/-- R62: the words of the opcode table decode to their operations, each written out bit by bit. -/
def Obligations.DecodeReadsTheTableWords : Prop :=
  decode 0b00000001#8 = .ok .aenc ∧ decode 0b00000010#8 = .ok .adec ∧
  decode 0b00000011#8 = .ok .rlook ∧ decode 0b00000100#8 = .ok .fext ∧
  decode 0b00000101#8 = .ok .csum ∧ decode 0b00000110#8 = .ok .bread ∧
  decode 0b00000111#8 = .ok .bwrite ∧ decode 0b00001000#8 = .ok .bmread ∧
  decode 0b00001001#8 = .ok .bbcast ∧ decode 0b00001010#8 = .ok .bctrl ∧
  decode 0b00001011#8 = .ok .parse

/-- Decoding an encoded instruction gives it back, and each word that decodes is the one its
instruction encodes to. -/
def Obligations.DecodeAndEncodeAgree : Prop :=
  (∀ i : Instr, decode (encode i) = .ok i) ∧ ∀ w i, decode w = .ok i → w = encode i

/-- R60, R194: where the command word decodes to `i`, a step is `exec i`, with nothing around it. -/
def Obligations.StepRunsTheSelectedOperation : Prop :=
  ∀ (s : State) (i : Instr), decode s.opr.OPC = .ok i → step s = exec i s

/-- R63: a word whose bits 7:4 are not 0, or whose `op` is 0x0 or 0xC..0xF, completes with
`IllegalOp(word, 0)` and writes no other result. -/
def Obligations.ReservedWordRaisesIllegalOp : Prop :=
  ∀ s : State, (16 ≤ s.opr.OPC.toNat ∨ s.opr.OPC.toNat = 0 ∨ 12 ≤ s.opr.OPC.toNat) →
    step s = .next (failed s 8 (BitVec.ofNat 16 s.opr.OPC.toNat) 0)

/-! ### AddressCodec -/

/-- R83: AENC of a valid string writes its wire form, and of a malformed one raises
`InvalidAddress(0, A_LEN)`; nothing else changes. -/
def Obligations.AencEncodesTheAddress : Prop :=
  ∀ s : State,
    (∀ wire, AddressString s.opr wire →
      exec .aenc s = .next { s with res :=
        { Results.noValues 0x01 0 0 0 with R_WADDR := some wire } }) ∧
    (Malformed s.opr →
      exec .aenc s = .next (failed s 1 0 (BitVec.ofNat 16 s.opr.A_LEN.toNat)))

/-- R85: ADEC always completes and writes the upper-case string of its wire address; nothing else
changes. -/
def Obligations.AdecRestoresTheAddress : Prop :=
  ∀ s : State, ∃ address, RestoredAddress s.opr.WADDR address ∧
    exec .adec s = .next { s with res :=
      { Results.noValues 0x01 0 0 0 with R_ADDR := some address } }

/-- R84: the transform is an involution, a bijection, takes the all-ones address to the broadcast
wire address, and leaves the exclusive or of the bytes as it is. -/
def Obligations.TransformLaws : Prop :=
  (∀ bytes, transform (transform bytes) = bytes) ∧ Function.Bijective transform ∧
  transform (Vector.replicate 6 0xFF) = Vector.replicate 6 0x00 ∧
  ∀ bytes, xorAll (transform bytes).toList = xorAll bytes.toList

/-- R86: AENC of the string ADEC gives for a wire address yields that address; ADEC of the bytes AENC
gives for a valid string yields the string in upper case. The host copies the results between the
two operations. -/
def Obligations.AddressRoundTrips : Prop :=
  (∀ (s t u : State) (address : Vector Byte 12),
    exec .adec s = .next t → t.res.R_ADDR = some address →
    u.opr.A_LEN = 12 → u.opr.A_CH = address →
    exec .aenc u = .next { u with res :=
      { Results.noValues 0x01 0 0 0 with R_WADDR := some s.opr.WADDR } }) ∧
  (∀ (s t u : State) (wire : Vector Byte 6),
    exec .aenc s = .next t → t.res.R_WADDR = some wire → u.opr.WADDR = wire →
    ∃ upper, UpperOf s.opr.A_CH upper ∧
      exec .adec u = .next { u with res :=
        { Results.noValues 0x01 0 0 0 with R_ADDR := some upper } })

/-! ### FieldRegistry -/

/-- R94: in a well-formed registry the look-up finds the descriptor of the row whose key equals the
identifier byte for byte, and nothing where no key does; the two variants' tables are separate. -/
def Obligations.LookupIsExact : Prop :=
  ∀ (g : Configuration) (id : List Byte), g.REGISTRY.wf = true →
    (∀ d, lookup g id = some d ↔ { key := id, desc := d } ∈ g.REGISTRY.rows g.VARIANT) ∧
    (lookup g id = none ↔ ∀ row ∈ g.REGISTRY.rows g.VARIANT, row.key ≠ id)

/-- R95: RLOOK of a well-shaped identifier reports a hit with its descriptor or a miss, never an
error; of an ill-shaped one it raises `InvalidFieldIdentifier(1, ID_LEN[0])`. -/
def Obligations.RlookReportsTheDescriptor : Prop :=
  ∀ s : State,
    (WellShaped s 0 →
      (∀ d, lookup s.cfg (slotBytes s 0) = some d →
        exec .rlook s = .next { s with res :=
          { Results.noValues 0x01 0 0 0 with R_HIT := some 1, R_DESC := some d } }) ∧
      (lookup s.cfg (slotBytes s 0) = none →
        exec .rlook s = .next { s with res :=
          { Results.noValues 0x01 0 0 0 with R_HIT := some 0 } })) ∧
    (¬ WellShaped s 0 →
      exec .rlook s = .next (failed s 2 1 (BitVec.ofNat 16 (s.opr.ID_LEN[0]).toNat)))

/-- R105 with R101 to R104 and R106: FEXT of at most 255 bytes reports the records of the walk over
them, in payload order; of more it raises `PayloadTooLong(DLEN, 255)`. -/
def Obligations.FextWalksThePayload : Prop :=
  ∀ (s : State) (p : List Byte), Presents s.opr p → p.length ≤ DCAP →
    (p.length ≤ 255 → ∃ out, Walk s.cfg p 0 out ∧
      exec .fext s = .next { s with res := { Results.noValues 0x01 0 0 0 with
        R_NF := some (BitVec.ofNat 8 out.length), R_F := out } }) ∧
    (255 < p.length → exec .fext s = .next (failed s 7 (BitVec.ofNat 16 p.length) 255))

/-- R96, R97, R99, R100: a payload that is one known identifier and its value bytes yields exactly
the record of the rules; with a scale of at most three decimals no rounding happens. -/
def Obligations.FextDecodesOneField : Prop :=
  ∀ (s : State) (id value : List Byte) (d : Descriptor),
    Presents s.opr (id ++ value) → id.length = idw s.cfg.VARIANT → value.length = d.byteWidth →
    lookup s.cfg id = some d → id.length + value.length ≤ 255 →
    ∃ f, DecodesTo id d value f ∧
      exec .fext s = .next { s with res := { Results.noValues 0x01 0 0 0 with
        R_NF := some 1, R_F := [f] } } ∧
      (d.customDecode = none → (d.scale.sdPred + 1) ∣ 1000 →
        f.val = .numeric (f.raw * d.scale.sn * (1000 / (d.scale.sdPred + 1))))

/-- R108: for a payload of at most 255 bytes, whatever the registry, the 64th pass stops if no pass
before it did, 64 passes give the result, at most 63 records are made, and each pass that goes on adds
at least `IDW` to `pos` and keeps it within the payload. -/
def Obligations.ExtractionIsBounded : Prop :=
  ∀ (g : Configuration) (p : List Byte), p.length ≤ 255 →
    (∀ n, 64 ≤ n →
      (fun c => Option.bind c (extractPass g p))^[n] (some { pos := 0, out := [] }) = none) ∧
    (∀ fuel, 64 ≤ fuel →
      extractLoop g p fuel { pos := 0, out := [] } = extract g p) ∧
    (extract g p).length ≤ 63 ∧
    ∀ c c', extractPass g p c = some c' →
      c.pos + idw g.VARIANT ≤ c'.pos ∧ c'.pos ≤ p.length

/-- R107: the mapping view of a record list takes the last record of an identifier. -/
def Obligations.MappingViewKeepsTheLast : Prop :=
  ∀ (records : List FieldRecord) (id : List Byte) (f : FieldRecord),
    fieldOf records id = some f ↔
      ∃ pre post, records = pre ++ f :: post ∧ f.id = id ∧ ∀ f' ∈ post, f'.id ≠ id

/-! ### ChecksumEngine -/

/-- R111, R112, R113: CSUM writes the exclusive or of the address, the control code, the declared
length as given and every presented byte; above 255 bytes it raises `PayloadTooLong(DLEN, 255)`. -/
def Obligations.CsumComputesTheChecksum : Prop :=
  ∀ (s : State) (p : List Byte), Presents s.opr p → p.length ≤ DCAP →
    (p.length ≤ 255 → exec .csum s = .next { s with res := { Results.noValues 0x01 0 0 0 with
        R_CSCALC := some (checkOf s.opr.WADDR s.opr.CC s.opr.LEN p) } }) ∧
    (255 < p.length → exec .csum s = .next (failed s 7 (BitVec.ofNat 16 p.length) 255))

/-- R115: (a) covered bytes with their checksum appended give 0; (b) one flipped bit of a covered
byte flips the same bit of the checksum; (c) the same bit flipped in two covered bytes leaves it
unchanged; (d) the wire and the canonical address give the same checksum. -/
def Obligations.ChecksumLaws : Prop :=
  (∀ wire cc len p,
    xorAll (wire.toList ++ [cc] ++ [len] ++ p ++ [checksum wire cc len p]) = 0) ∧
  (∀ (covered : List Byte) (k : Nat) (hk : k < covered.length) (bit : Byte),
    xorAll (covered.set k (covered[k] ^^^ bit)) = xorAll covered ^^^ bit) ∧
  (∀ (covered : List Byte) (j k : Nat) (hj : j < covered.length) (hk : k < covered.length)
      (bit : Byte), j ≠ k →
    xorAll ((covered.set j (covered[j] ^^^ bit)).set k (covered[k] ^^^ bit)) = xorAll covered) ∧
  ∀ wire cc len p, checksum (transform wire) cc len p = checksum wire cc len p

/-! ### FrameBuilder -/

/-- R123: BREAD. -/
def Obligations.BreadBuildsAReadFrame : Prop :=
  ∀ s : State,
    (Malformed s.opr → exec .bread s = .next (failed s 1 0 (BitVec.ofNat 16 s.opr.A_LEN.toNat))) ∧
    ∀ wire, AddressString s.opr wire →
      (¬ WellShaped s 0 →
        exec .bread s = .next (failed s 2 1 (BitVec.ofNat 16 (s.opr.ID_LEN[0]).toNat))) ∧
      (WellShaped s 0 → Builds .bread s wire 0x01 (slotBytes s 0))

/-- R124: BWRITE. -/
def Obligations.BwriteBuildsAWriteFrame : Prop :=
  ∀ (s : State) (value : List Byte), Presents s.opr value → value.length ≤ DCAP →
    (Malformed s.opr → exec .bwrite s = .next (failed s 1 0 (BitVec.ofNat 16 s.opr.A_LEN.toNat))) ∧
    ∀ wire, AddressString s.opr wire →
      (¬ WellShaped s 0 →
        exec .bwrite s = .next (failed s 2 1 (BitVec.ofNat 16 (s.opr.ID_LEN[0]).toNat))) ∧
      (WellShaped s 0 → 255 < idw s.cfg.VARIANT + value.length →
        exec .bwrite s =
          .next (failed s 7 (BitVec.ofNat 16 (idw s.cfg.VARIANT + value.length)) 255)) ∧
      (WellShaped s 0 → idw s.cfg.VARIANT + value.length ≤ 255 →
        Builds .bwrite s wire s.opr.CC (slotBytes s 0 ++ value))

/-- R125: BMREAD, with the checks of R121 in their order. -/
def Obligations.BmreadBuildsAMultiReadFrame : Prop :=
  ∀ s : State,
    (Malformed s.opr → exec .bmread s = .next (failed s 1 0 (BitVec.ofNat 16 s.opr.A_LEN.toNat))) ∧
    ∀ wire, AddressString s.opr wire →
      (64 < s.opr.NID.toNat → exec .bmread s =
        .next (failed s 7 (BitVec.ofNat 16 (s.opr.NID.toNat * idw s.cfg.VARIANT)) 255)) ∧
      (∀ k : Fin 64, s.opr.NID.toNat ≤ 64 → k.val < s.opr.NID.toNat → ¬ WellShaped s k →
        (∀ j : Fin 64, j < k → WellShaped s j) →
        exec .bmread s = .next (failed s 2 (BitVec.ofNat 16 (1 + k.val))
          (BitVec.ofNat 16 (s.opr.ID_LEN[k]).toNat))) ∧
      (s.opr.NID.toNat ≤ 64 → (∀ k : Fin 64, k.val < s.opr.NID.toNat → WellShaped s k) →
        (255 < s.opr.NID.toNat * idw s.cfg.VARIANT → exec .bmread s =
          .next (failed s 7 (BitVec.ofNat 16 (s.opr.NID.toNat * idw s.cfg.VARIANT)) 255)) ∧
        (s.opr.NID.toNat * idw s.cfg.VARIANT ≤ 255 →
          Builds .bmread s wire 0x01
            (((List.finRange 64).take s.opr.NID.toNat).flatMap (slotBytes s))))

/-- R126: BBCAST, whatever the address and identifier registers hold. -/
def Obligations.BbcastBuildsABroadcastFrame : Prop :=
  ∀ (s : State) (p : List Byte), Presents s.opr p → p.length ≤ DCAP →
    (p.length ≤ 255 → Builds .bbcast s (Vector.replicate 6 0) s.opr.CC p) ∧
    (255 < p.length → exec .bbcast s = .next (failed s 7 (BitVec.ofNat 16 p.length) 255))

/-- R127, R128: BCTRL, for every value of the parameter `LEGACY_CONTROL_CC`. -/
def Obligations.BctrlBuildsAControlFrame : Prop :=
  ∀ s : State,
    (Malformed s.opr → exec .bctrl s = .next (failed s 1 0 (BitVec.ofNat 16 s.opr.A_LEN.toNat))) ∧
    ∀ wire, AddressString s.opr wire →
      (¬ WellShaped s 0 →
        exec .bctrl s = .next (failed s 2 1 (BitVec.ofNat 16 (s.opr.ID_LEN[0]).toNat))) ∧
      (WellShaped s 0 → s.cfg.VARIANT = .revised →
        Builds .bctrl s wire 0x0F (slotBytes s 0 ++ [s.opr.CMDB])) ∧
      (WellShaped s 0 → s.cfg.VARIANT = .legacy →
        Builds .bctrl s wire s.cfg.LEGACY_CONTROL_CC (slotBytes s 0 ++ [s.opr.CMDB]))

/-- R52: what a builder leaves, when it leaves a frame, is one of the frame format, of exactly
`9 + payloadLength + 2` bytes, between 11 and 266, with the length byte at offset 8. -/
def Obligations.BuiltFrameLength : Prop :=
  ∀ (i : Instr) (s t : State) (n : Half), IsBuilder i → exec i s = .next t →
    t.res.TXLEN = some n →
    11 ≤ n.toNat ∧ n.toNat ≤ 266 ∧
    (∃ len : Byte, Memory.read .txbuf t.res.TXBUF 8 = some len ∧ n.toNat = 9 + len.toNat + 2) ∧
    (∃ wire cc p, n.toNat = 9 + p.length + 2 ∧
      Memory.Holds .txbuf t.res.TXBUF (wireFrame wire cc p)) ∧
    ∀ a, (Memory.read .txbuf t.res.TXBUF a).isSome = true ↔ a < n.toNat

/-- R66: three operations are special cases of others, for results and for errors: BREAD is BMREAD of
one identifier, BCTRL is BWRITE of the command byte under `CC_CONTROL`, and PARSE is its stages 1 to 5
and then FEXT on the payload. -/
def Obligations.PseudoOperations : Prop :=
  (∀ s u : State, u.cfg = s.cfg → AgreeAddress s.opr u.opr → AgreeSlot s.opr u.opr 0 →
    u.opr.NID = 1 →
    ∃ t t', exec .bread s = .next t ∧ exec .bmread u = .next t' ∧ t'.res = t.res) ∧
  (∀ s u : State, u.cfg = s.cfg → AgreeAddress s.opr u.opr → AgreeSlot s.opr u.opr 0 →
    Presents u.opr [s.opr.CMDB] →
    u.opr.CC = (match s.cfg.VARIANT with
      | .legacy => s.cfg.LEGACY_CONTROL_CC
      | .revised => 0x0F) →
    ∃ t t', exec .bctrl s = .next t ∧ exec .bwrite u = .next t' ∧ t'.res = t.res) ∧
  ∀ (s u : State) (b : List Byte), u.cfg = s.cfg → Presents s.opr b → b.length ≤ DCAP →
    match runStages s.cfg b [.lengthFloor, .delimiters, .structuralSlice, .integrity,
      .addressRestore] ParseRegs.start with
    | .error e => exec .parse s = .next (failed s e.err.code e.info0 e.info1)
    | .ok r => Presents u.opr r.payload →
      ∃ t t', exec .parse s = .next t ∧ exec .fext u = .next t' ∧
        t.res.ERRC = 0 ∧ t'.res.ERRC = 0 ∧ t'.res.R_NF = t.res.R_NF ∧ t'.res.R_F = t.res.R_F

/-! ### FrameParser -/

/-- R141, R142, R144, R147 in the order of R151 and R170: the first stage that fails gives the one
error reported, and nothing else is written. -/
def Obligations.ParseReportsTheFirstError : Prop :=
  ∀ (s : State) (b : List Byte), Presents s.opr b → b.length ≤ DCAP →
    (b.length < minLen s.cfg.VARIANT → exec .parse s =
      .next (failed s 3 (BitVec.ofNat 16 b.length) (BitVec.ofNat 16 (minLen s.cfg.VARIANT)))) ∧
    (minLen s.cfg.VARIANT ≤ b.length → ∀ first last len check : Byte,
      b[0]? = some first → b.getLast? = some last → b[8]? = some len →
      ((first ≠ 0x68 ∨ last ≠ 0x16) → exec .parse s =
        .next (failed s 4 (BitVec.ofNat 16 first.toNat) (BitVec.ofNat 16 last.toNat))) ∧
      (first = 0x68 → last = 0x16 → 9 + len.toNat + 2 ≠ b.length → exec .parse s =
        .next (failed s 5 (BitVec.ofNat 16 (9 + len.toNat + 2)) (BitVec.ofNat 16 b.length))) ∧
      (first = 0x68 → last = 0x16 → 9 + len.toNat + 2 = b.length →
        b[9 + len.toNat]? = some check →
        xorOf ((b.drop 1).take (8 + len.toNat)) ≠ check → exec .parse s =
        .next (failed s 6
          (BitVec.ofNat 16 (xorOf ((b.drop 1).take (8 + len.toNat))).toNat)
          (BitVec.ofNat 16 check.toNat))))

/-- R148, R149, R150, R151: a frame of at least `MINLEN` bytes is accepted, and the result registers
are exactly those of stage 7. -/
def Obligations.ParseReturnsTheFrame : Prop :=
  ∀ (s : State) (wire : Vector Byte 6) (cc : Byte) (p : List Byte),
    p.length ≤ 255 → minLen s.cfg.VARIANT ≤ 11 + p.length →
    Presents s.opr (wireFrame wire cc p) →
    ∃ address m out, RestoredAddress wire address ∧ Memory.wf .rpay m ∧
      Memory.Holds .rpay m p ∧ Walk s.cfg p 0 out ∧
      exec .parse s = .next { s with res :=
        { Results.noValues (if cc ∈ ccSet s.cfg.VARIANT then 0x05 else 0x01) 0 0 0 with
          R_ADDR := some address
          R_CC := some cc
          R_PLEN := some (BitVec.ofNat 8 p.length)
          R_PAY := m
          R_CSRX := some (checkOf wire cc (BitVec.ofNat 8 p.length) p)
          R_CSCALC := some (checkOf wire cc (BitVec.ofNat 8 p.length) p)
          R_NF := some (BitVec.ofNat 8 out.length)
          R_F := out } }

/-- R140: when stages in their order have passed and the next one fails, its error ends the operation
and only the status and error registers are written; stages 5, 6 and 7 never fail; the order is 1 to
7. -/
def Obligations.StagesFailFast : Prop :=
  (∀ (s : State) (b : List Byte) (before after : List Stage) (st : Stage) (r : ParseRegs)
      (e : Raised), Presents s.opr b → b.length ≤ DCAP → Stage.inOrder = before ++ st :: after →
    runStages s.cfg b before ParseRegs.start = .ok r →
    runStage s.cfg b { r with stage := st } = .error e →
    exec .parse s = .next (failed s e.err.code e.info0 e.info1)) ∧
  (∀ (g : Configuration) (b : List Byte) (r : ParseRegs), 5 ≤ r.stage.number →
    ∃ r', runStage g b r = .ok r') ∧
  Stage.inOrder.map Stage.number = [1, 2, 3, 4, 5, 6, 7]

/-- R146: a buffer of more than 266 bytes fails, with `DelimiterMismatch` or `LengthMismatch`; this
holds of buffers above `DCAP` too, which the host judges by it (70_reset_and_hazards.md R199). The
second info word is the length; of a length that does not fit 16 bits, for which the spec states no
info word, nothing is said of it (log entry 18). -/
def Obligations.OverlongBuffersFail : Prop :=
  ∀ (g : Configuration) (b : List Byte), 266 < b.length → ∃ word : Half,
    (b.length < 65536 → word.toNat = b.length) ∧
    parseBuffer g b = .error (if byteAt b 0 = 0x68 ∧ byteAt b (b.length - 1) = 0x16 then
        ⟨.lengthMismatch, BitVec.ofNat 16 (9 + (byteAt b 8).toNat + 2), word⟩
      else
        ⟨.delimiterMismatch, BitVec.ofNat 16 (byteAt b 0).toNat,
          BitVec.ofNat 16 (byteAt b (b.length - 1)).toNat⟩)

/-- R152: flipping one bit of a buffer that PARSE accepts gives `DelimiterMismatch` in the first or
last byte, `LengthMismatch` in byte 8, and `ChecksumMismatch` in any other. -/
def Obligations.SingleBitCorruptionIsReported : Prop :=
  ∀ (s t u : State) (b : List Byte) (k : Nat) (hk : k < b.length) (j : Nat), j < 8 →
    Presents s.opr b → exec .parse s = .next t → t.res.ERRC = 0 →
    u.cfg = s.cfg → Presents u.opr (b.set k (b[k] ^^^ BitVec.twoPow 8 j)) →
    ∃ i0 i1, exec .parse u = .next (failed u
      (if k = 0 ∨ k = b.length - 1 then 4 else if k = 8 then 5 else 6) i0 i1)

/-- R202 with R115 (c): flipping the same bits in two payload bytes of a buffer that PARSE accepts
gives a buffer that it accepts, with that payload. -/
def Obligations.PairedErrorsAreAccepted : Prop :=
  ∀ (s t u : State) (b : List Byte) (j k : Nat) (hj : j < b.length) (hk : k < b.length) (bits : Byte),
    9 ≤ j → 9 ≤ k → j ≠ k → j < b.length - 2 → k < b.length - 2 →
    Presents s.opr b → exec .parse s = .next t → t.res.ERRC = 0 → u.cfg = s.cfg →
    Presents u.opr ((b.set j (b[j] ^^^ bits)).set k (b[k] ^^^ bits)) →
    ∃ t', exec .parse u = .next t' ∧ t'.res.ERRC = 0 ∧
      Memory.read .rpay t'.res.R_PAY (j - 9) = some (b[j] ^^^ bits) ∧
      Memory.read .rpay t'.res.R_PAY (k - 9) = some (b[k] ^^^ bits)

/-- R130: a frame built by any builder, presented to PARSE in a block of the same configuration, passes
stages 2, 3 and 4, so is rejected only for its length, which is below the floor only for BMREAD with
no identifier and for BBCAST with a short payload; otherwise the payload and the address come back,
the address in upper case. -/
def Obligations.BuiltFramesParse : Prop :=
  ∀ (i : Instr) (s t u : State) (n : Half) (f : List Byte),
    IsBuilder i → exec i s = .next t → t.res.TXLEN = some n →
    f.length = n.toNat → Memory.Holds .txbuf t.res.TXBUF f →
    u.cfg = s.cfg → Presents u.opr f →
    (∃ r, runStages u.cfg f [.delimiters, .structuralSlice, .integrity] ParseRegs.start = .ok r) ∧
    (n.toNat < minLen s.cfg.VARIANT →
      exec .parse u = .next (failed u 3 n (BitVec.ofNat 16 (minLen s.cfg.VARIANT)))) ∧
    (i ≠ .bbcast → ¬ (i = .bmread ∧ s.opr.NID = 0) → minLen s.cfg.VARIANT ≤ n.toNat) ∧
    (minLen s.cfg.VARIANT ≤ n.toNat → ∃ t' address, exec .parse u = .next t' ∧
      t'.res.ERRC = 0 ∧ t'.res.R_ADDR = some address ∧
      t'.res.R_PLEN = some (BitVec.ofNat 8 (n.toNat - 11)) ∧
      (∀ a, a < n.toNat - 11 →
        Memory.read .rpay t'.res.R_PAY a = Memory.read .txbuf t.res.TXBUF (9 + a)) ∧
      (i ≠ .bbcast → UpperOf s.opr.A_CH address) ∧
      (i = .bbcast → ∀ c : Fin 12, address[c] = 0x46))

/-- R156: a response frame built with READ_RESP for a valid address, a well-shaped identifier and its
value parses with the address in upper case and, when the identifier is registered with the value's
width, one field record, of that identifier. -/
def Obligations.ResponseRoundTrip : Prop :=
  ∀ (s t u : State) (n : Half) (f value : List Byte),
    s.opr.CC = 0x81 → Presents s.opr value → exec .bwrite s = .next t →
    t.res.TXLEN = some n → f.length = n.toNat → Memory.Holds .txbuf t.res.TXBUF f →
    u.cfg = s.cfg → Presents u.opr f →
    ∃ t' address, exec .parse u = .next t' ∧ t'.res.ERRC = 0 ∧
      t'.res.R_ADDR = some address ∧ UpperOf s.opr.A_CH address ∧ t'.res.R_CC = some 0x81 ∧
      (∀ d, lookup s.cfg (slotBytes s 0) = some d → value.length = d.byteWidth →
        ∃ rec, t'.res.R_F = [rec] ∧ DecodesTo (slotBytes s 0) d value rec)

/-- R154: between blocks that differ in variant, registry and parameter, a buffer that is long enough
for both is accepted or rejected alike, and an accepted one gives the same address, control code,
payload and checksums. -/
def Obligations.VariantIsNotChecked : Prop :=
  ∀ (s u : State) (b : List Byte), Presents s.opr b → Presents u.opr b → b.length ≤ DCAP →
    minLen s.cfg.VARIANT ≤ b.length → minLen u.cfg.VARIANT ≤ b.length →
    ∃ t t', exec .parse s = .next t ∧ exec .parse u = .next t' ∧
      t'.res.ERRC = t.res.ERRC ∧ t'.res.EINFO0 = t.res.EINFO0 ∧ t'.res.EINFO1 = t.res.EINFO1 ∧
      t'.res.R_ADDR = t.res.R_ADDR ∧ t'.res.R_CC = t.res.R_CC ∧ t'.res.R_PLEN = t.res.R_PLEN ∧
      t'.res.R_PAY = t.res.R_PAY ∧ t'.res.R_CSRX = t.res.R_CSRX ∧
      t'.res.R_CSCALC = t.res.R_CSCALC

/-- R153 with R55: PARSE of two frames that differ in their control code (and so in their checksum)
gives the same verdict, address, payload and field records. -/
def Obligations.ControlCodeIsNotExamined : Prop :=
  ∀ (s u : State) (wire : Vector Byte 6) (cc cc' : Byte) (p : List Byte), u.cfg = s.cfg →
    p.length ≤ 255 → Presents s.opr (wireFrame wire cc p) → Presents u.opr (wireFrame wire cc' p) →
    ∃ t t', exec .parse s = .next t ∧ exec .parse u = .next t' ∧
      t'.res.ERRC = t.res.ERRC ∧ t'.res.EINFO0 = t.res.EINFO0 ∧ t'.res.EINFO1 = t.res.EINFO1 ∧
      t'.res.R_ADDR = t.res.R_ADDR ∧ t'.res.R_PLEN = t.res.R_PLEN ∧ t'.res.R_PAY = t.res.R_PAY ∧
      t'.res.R_NF = t.res.R_NF ∧ t'.res.R_F = t.res.R_F ∧
      (minLen s.cfg.VARIANT ≤ 11 + p.length → t.res.R_CC = some cc ∧ t'.res.R_CC = some cc')

/-! ### Errors, status and purity -/

/-- R165: an operation that runs ends with `DONE`; either it failed, with a code of R161, and then
`CC_KNOWN` is 0 and no other result register holds a value; or it succeeded, with `ERRC`, `EINFO0`
and `EINFO1` 0. `ERR` is 1 exactly when `ERRC` is not 0. -/
def Obligations.ErrorEntry : Prop :=
  ∀ (i : Instr) (s t : State), exec i s = .next t →
    t.cfg = s.cfg ∧ t.opr = s.opr ∧ doneFlag t.res.ST = true ∧
    (errFlag t.res.ST = true ↔ t.res.ERRC ≠ 0) ∧
    (t.res.ERRC ≠ 0 → 1 ≤ t.res.ERRC.toNat ∧ t.res.ERRC.toNat ≤ 7 ∧
      t.res = Results.noValues 0x03 t.res.ERRC t.res.EINFO0 t.res.EINFO1) ∧
    (t.res.ERRC = 0 → t.res.EINFO0 = 0 ∧ t.res.EINFO1 = 0 ∧
      (t.res.ST = 0x01 ∨ (i = .parse ∧ t.res.ST = 0x05)))

/-- R20: after reset, after a reserved command word and after an operation, a read of a result register
that holds no value faults: any but the status and error registers after reset or a failure, and one
that the operation's row of R17 does not list. -/
def Obligations.OnlyListedResultsHoldValues : Prop :=
  ∀ reg : ResultReg, ¬ IsStatus reg → ResultReg.addressFault reg = none →
    hostRead (.result reg) State.reset = .error (.noValue reg) ∧
    (∀ (s t : State) (e : Reserved), decode s.opr.OPC = .error e → step s = .next t →
      hostRead (.result reg) t = .error (.noValue reg)) ∧
    ∀ (i : Instr) (s t : State), exec i s = .next t → (¬ Lists i reg ∨ t.res.ERRC ≠ 0) →
      hostRead (.result reg) t = .error (.noValue reg)

/-- R11, with R194's "Operand registers the operation's rule does not name are ignored": two blocks of
equal configuration whose operands agree on what the operation's rule names give equal results,
whatever ran before in either. -/
def Obligations.OperationsArePure : Prop :=
  ∀ (i : Instr) (s u t : State), u.cfg = s.cfg → AgreeOn s.opr u.opr i →
    exec i s = .next t → exec i u = .next { u with res := t.res }

/-- R131, R155: every operation completes on every operand values a host can present, and stops only
where more than `DCAP` bytes are presented (93_implementation_defined.md U11). -/
def Obligations.EveryOperationCompletes : Prop :=
  ∀ (i : Instr) (s : State),
    (s.opr.DLEN.toNat ≤ 512 → ∃ r, exec i s = .next { s with res := r }) ∧
    (¬ ReadsData i → ∃ r, exec i s = .next { s with res := r }) ∧
    (ReadsData i → 512 < s.opr.DLEN.toNat → exec i s = .refused .dlenAboveDcap)

/-! ### The host's port and the invariant -/

/-- R15: a write of the host puts its value in its register and leaves every other operand register,
the configuration and every result register as they were. -/
def Obligations.HostWriteReachesOneRegister : Prop :=
  ∀ (w : HostWrite) (s t : State), Memory.wf .dbuf s.opr.DBUF → hostWrite w s = .next t →
    t.cfg = s.cfg ∧ t.res = s.res ∧
    (t.opr.OPC = (match w with | .opc b => b | _ => s.opr.OPC)) ∧
    (t.opr.A_LEN = (match w with | .aLen b => b | _ => s.opr.A_LEN)) ∧
    (t.opr.CC = (match w with | .cc b => b | _ => s.opr.CC)) ∧
    (t.opr.LEN = (match w with | .len b => b | _ => s.opr.LEN)) ∧
    (t.opr.CMDB = (match w with | .cmdb b => b | _ => s.opr.CMDB)) ∧
    (t.opr.NID = (match w with | .nid b => b | _ => s.opr.NID)) ∧
    (t.opr.DLEN = (match w with | .dlen h => h | _ => s.opr.DLEN)) ∧
    (∀ i : Fin 12, t.opr.A_CH[i] =
      (match w with | .aCh j b => if i = j then b else s.opr.A_CH[i] | _ => s.opr.A_CH[i])) ∧
    (∀ i : Fin 6, t.opr.WADDR[i] =
      (match w with | .waddr j b => if i = j then b else s.opr.WADDR[i] | _ => s.opr.WADDR[i])) ∧
    (∀ k : Fin 64, t.opr.ID_LEN[k] =
      (match w with | .idLen j b => if k = j then b else s.opr.ID_LEN[k] | _ => s.opr.ID_LEN[k])) ∧
    (∀ (k : Fin 64) (j : Fin 6), (t.opr.ID_B[k])[j] =
      (match w with
        | .idB k' j' b => if k = k' ∧ j = j' then b else (s.opr.ID_B[k])[j]
        | _ => (s.opr.ID_B[k])[j])) ∧
    ∀ a, Memory.read .dbuf t.opr.DBUF a =
      (match w with
        | .dbuf off b => if a = off then some b else Memory.read .dbuf s.opr.DBUF a
        | _ => Memory.read .dbuf s.opr.DBUF a)

/-- The invariant holds of a state a step leaves, from every state that meets it. -/
def Obligations.StepKeepsTheInvariant : Prop :=
  ∀ s t : State, s.Inv → step s = .next t → t.Inv

/-- A write of the host keeps the invariant. -/
def Obligations.HostWriteKeepsTheInvariant : Prop :=
  ∀ (w : HostWrite) (s t : State), s.Inv → hostWrite w s = .next t → t.Inv

/-- Every state a block can be in, from any construction by any writes and starts, meets the
invariant, and there no `start` pulse stops. Both rest on the model's reset values of `DLEN` (0) and
`DBUF` (nothing listed), which the spec leaves unspecified (log entries 4 and 5, DESIGN CHOICE). -/
def Obligations.ReachableStatesAreSafe : Prop :=
  ∀ s : State, Reachable s → s.Inv ∧ ∃ t, step s = .next t

/-- R10, R13, R190: the variant register reads as 0 or 1 by the variant; in a block constructed from a
strap bit it reads as that bit after any writes and starts, and the registry and the parameter
`LEGACY_CONTROL_CC` stay what the block was built with. -/
def Obligations.ConfigurationIsFixedForLife : Prop :=
  (∀ s : State, hostRead .variant s =
    .ok (.bit (match s.cfg.VARIANT with | .legacy => 0 | .revised => 1))) ∧
  ∀ (b : BitVec 1) (r : Registry) (cc : Byte) (s t : State),
    construct (some b) r cc = .next s → Runs s t →
    hostRead .variant t = .ok (.bit b) ∧ t.cfg.REGISTRY = r ∧ t.cfg.LEGACY_CONTROL_CC = cc
end

