-- ==== Sys2Proof/Laws/Memory.lean ====
section
/-! SUPPORT. The laws of the byte buffers: a read after a write, and the canonical form kept by every
memory operation. -/

namespace Sys2Proof.Machine

@[simp] theorem Memory.read_nil (sp : Space) (a : Nat) : Memory.read sp [] a = sp.unlisted := rfl

theorem Memory.read_cons (sp : Space) (k : Nat) (x : Byte) (m : Memory) (a : Nat) :
    Memory.read sp ((k, x) :: m) a = if a = k then some x else Memory.read sp m a := rfl

theorem Memory.writeByte_nil (sp : Space) (a : Nat) (b : Byte) :
    Memory.writeByte sp [] a b = if some b = sp.unlisted then [] else [(a, b)] := rfl

theorem Memory.writeByte_cons (sp : Space) (k : Nat) (x : Byte) (m : Memory) (a : Nat) (b : Byte) :
    Memory.writeByte sp ((k, x) :: m) a b =
      if a < k then
        if some b = sp.unlisted then (k, x) :: m else (a, b) :: (k, x) :: m
      else if a = k then
        if some b = sp.unlisted then m else (a, b) :: m
      else (k, x) :: Memory.writeByte sp m a b := rfl

theorem Memory.wf_nil (sp : Space) : Memory.wf sp [] := by simp [Memory.wf]

theorem Memory.wf_cons {sp : Space} {c : Host.Cell} {m : Memory} :
    Memory.wf sp (c :: m) ↔
      (∀ d ∈ m, c.1 < d.1) ∧ (c.1 < sp.size ∧ some c.2 ≠ sp.unlisted) ∧ Memory.wf sp m := by
  simp only [Memory.wf, List.pairwise_cons, List.forall_mem_cons]
  tauto

/-- Below every listed address a canonical memory reads as unlisted. -/
theorem Memory.read_of_lt {sp : Space} {m : Memory} {a : Nat} (h : ∀ d ∈ m, a < d.1) :
    Memory.read sp m a = sp.unlisted := by
  induction m with
  | nil => rfl
  | cons c m ih =>
    have hc := h c (by simp)
    rw [Memory.read_cons, if_neg (by omega), ih fun d hd => h d (by simp [hd])]

/-- A byte of a written address reads as the value written, and every other byte as before. -/
theorem Memory.read_writeByte {sp : Space} {m : Memory} (hm : Memory.wf sp m) (a : Nat) (b : Byte)
    (x : Nat) :
    Memory.read sp (Memory.writeByte sp m a b) x =
      if x = a then some b else Memory.read sp m x := by
  induction m with
  | nil =>
    rw [Memory.writeByte_nil]
    by_cases h : some b = sp.unlisted
    · rw [if_pos h, Memory.read_nil, h, ite_self]
    · rw [if_neg h]
      rfl
  | cons c m ih =>
    obtain ⟨k, y⟩ := c
    obtain ⟨hlt, -, hwf⟩ := Memory.wf_cons.1 hm
    have hbelow : ∀ z, z ≤ k → Memory.read sp m z = sp.unlisted := fun z hz =>
      Memory.read_of_lt fun d hd => lt_of_le_of_lt hz (hlt d hd)
    rw [Memory.writeByte_cons]
    by_cases hx : x = a
    · subst hx
      rw [if_pos rfl]
      split_ifs with h1 h2 h3 h4
      · rw [Memory.read_cons, if_neg (by omega), hbelow x (by omega), h2]
      · rw [Memory.read_cons, if_pos rfl]
      · rw [hbelow x (by omega), h4]
      · rw [Memory.read_cons, if_pos rfl]
      · rw [Memory.read_cons, if_neg h3, ih hwf, if_pos rfl]
    · rw [if_neg hx]
      split_ifs with h1 h2 h3 h4
      · rfl
      · rw [Memory.read_cons, if_neg hx]
      · rw [Memory.read_cons, if_neg (h3 ▸ hx)]
      · rw [Memory.read_cons, Memory.read_cons, if_neg hx, if_neg (h3 ▸ hx)]
      · rw [Memory.read_cons, Memory.read_cons, ih hwf, if_neg hx]

theorem Memory.mem_writeByte {sp : Space} {m : Memory} {a : Nat} {b : Byte} {d : Host.Cell}
    (h : d ∈ Memory.writeByte sp m a b) : d ∈ m ∨ (d = (a, b) ∧ some b ≠ sp.unlisted) := by
  induction m with
  | nil => rw [Memory.writeByte_nil] at h; split_ifs at h <;> simp_all
  | cons c m ih =>
    rw [Memory.writeByte_cons] at h
    split_ifs at h <;> simp only [List.mem_cons] at h ⊢ <;> tauto

/-- A write inside the buffer keeps the canonical form. -/
theorem Memory.wf_writeByte {sp : Space} {m : Memory} (hm : Memory.wf sp m) {a : Nat}
    (ha : a < sp.size) (b : Byte) : Memory.wf sp (Memory.writeByte sp m a b) := by
  induction m with
  | nil =>
    rw [Memory.writeByte_nil]
    split_ifs with h
    · exact Memory.wf_nil sp
    · exact Memory.wf_cons.2 ⟨by simp, ⟨ha, h⟩, Memory.wf_nil sp⟩
  | cons c m ih =>
    obtain ⟨k, y⟩ := c
    obtain ⟨hlt, hk, hwf⟩ := Memory.wf_cons.1 hm
    rw [Memory.writeByte_cons]
    split_ifs with h1 h2 h3 h4
    · exact hm
    · refine Memory.wf_cons.2 ⟨?_, ⟨ha, h2⟩, hm⟩
      intro d hd
      rcases List.mem_cons.1 hd with rfl | hd
      · exact h1
      · exact h1.trans (hlt d hd)
    · exact hwf
    · exact Memory.wf_cons.2 ⟨fun d hd => h3 ▸ hlt d hd, ⟨ha, h4⟩, hwf⟩
    · refine Memory.wf_cons.2 ⟨?_, hk, ih hwf⟩
      intro d hd
      rcases Memory.mem_writeByte hd with hd | ⟨rfl, -⟩
      · exact hlt d hd
      · show k < a
        omega

theorem Memory.wf_write {sp : Space} (bytes : List Byte) {m : Memory} (hm : Memory.wf sp m)
    {off : Nat} (h : off + bytes.length ≤ sp.size) : Memory.wf sp (Memory.write sp m off bytes) := by
  induction bytes generalizing m off with
  | nil => exact hm
  | cons b bytes ih =>
    simp only [List.length_cons] at h
    exact ih (Memory.wf_writeByte hm (by omega) b) (by omega)

/-- After a write of a byte sequence, the bytes inside it read as written and all others as before. -/
theorem Memory.read_write {sp : Space} (bytes : List Byte) {m : Memory} (hm : Memory.wf sp m)
    {off : Nat} (h : off + bytes.length ≤ sp.size) (x : Nat) :
    Memory.read sp (Memory.write sp m off bytes) x =
      if off ≤ x ∧ x < off + bytes.length then bytes[x - off]? else Memory.read sp m x := by
  induction bytes generalizing m off with
  | nil => rw [if_neg (by simp only [List.length_nil]; omega)]; rfl
  | cons b bytes ih =>
    simp only [List.length_cons] at h
    have hw := Memory.wf_writeByte hm (a := off) (by omega) b
    show Memory.read sp (Memory.write sp (Memory.writeByte sp m off b) (off + 1) bytes) x = _
    rw [ih hw (by omega), Memory.read_writeByte hm]
    simp only [List.length_cons]
    by_cases hx : x = off
    · subst hx
      rw [if_neg (by omega), if_pos rfl, if_pos (by omega)]
      simp
    · by_cases hin : off + 1 ≤ x ∧ x < off + 1 + bytes.length
      · rw [if_pos hin, if_pos (by omega)]
        obtain ⟨j, rfl⟩ : ∃ j, x = off + 1 + j := ⟨x - (off + 1), by omega⟩
        rw [show off + 1 + j - (off + 1) = j by omega, show off + 1 + j - off = j + 1 by omega]
        rfl
      · rw [if_neg hin, if_neg hx, if_neg (by omega)]

/-- A result buffer written from offset 0 holds exactly the bytes written. -/
theorem Memory.holds_write {sp : Space} (hsp : sp.unlisted = none) {bytes : List Byte}
    (h : bytes.length ≤ sp.size) : Memory.Holds sp (Memory.write sp [] 0 bytes) bytes := by
  intro a
  rw [Memory.read_write bytes (Memory.wf_nil sp) (by omega)]
  split_ifs with hin
  · rfl
  · rw [Memory.read_nil, hsp, eq_comm, List.getElem?_eq_none]
    omega

theorem Memory.Holds.unique {sp : Space} {m : Memory} {l l' : List Byte}
    (h : Memory.Holds sp m l) (h' : Memory.Holds sp m l') : l = l' :=
  List.ext_getElem? fun i => by rw [← h i, ← h' i]

/-- Every byte of `DBUF` has a value. -/
theorem dbuf_read (m : Memory) (a : Nat) : Memory.read .dbuf m a = some (dataByte m a) := by
  unfold dataByte
  induction m with
  | nil => rfl
  | cons c m ih =>
    obtain ⟨k, x⟩ := c
    rw [Memory.read_cons]
    split_ifs
    · rfl
    · exact ih

@[simp] theorem dataSlice_length (m : Memory) (off n : Nat) : (dataSlice m off n).length = n := by
  simp [dataSlice]

@[simp] theorem presentedData_length (o : Operands) : (presentedData o).length = o.DLEN.toNat := by
  simp [presentedData]

/-- The presented data is the byte sequence that `DBUF` holds below `DLEN`. -/
theorem presentedData_eq {o : Operands} {b : List Byte} (hlen : b.length = o.DLEN.toNat)
    (h : ∀ a, a < b.length → Memory.read .dbuf o.DBUF a = b[a]?) : presentedData o = b := by
  refine List.ext_getElem (by simp [hlen]) fun i h1 h2 => ?_
  have hi := h i h2
  rw [dbuf_read, List.getElem?_eq_getElem h2] at hi
  simpa [presentedData, dataSlice] using Option.some.inj hi

theorem presentedData_getElem? (o : Operands) {a : Nat} (h : a < o.DLEN.toNat) :
    (presentedData o)[a]? = Memory.read .dbuf o.DBUF a := by
  rw [dbuf_read]
  simp [presentedData, dataSlice, h]

end Sys2Proof.Machine
end

