-- ==== Sys2Proof/Laws/State.lean ====
section
/-! SUPPORT. Small lemmas about the state record and its updates, so that no later proof unfolds a
record update. -/

namespace Sys2Proof.Machine

section NoValues
variable (st errc : Byte) (i0 i1 : Half)

@[simp] theorem noValues_ST : (Results.noValues st errc i0 i1).ST = st := rfl
@[simp] theorem noValues_ERRC : (Results.noValues st errc i0 i1).ERRC = errc := rfl
@[simp] theorem noValues_EINFO0 : (Results.noValues st errc i0 i1).EINFO0 = i0 := rfl
@[simp] theorem noValues_EINFO1 : (Results.noValues st errc i0 i1).EINFO1 = i1 := rfl
@[simp] theorem noValues_TXLEN : (Results.noValues st errc i0 i1).TXLEN = none := rfl
@[simp] theorem noValues_TXBUF : (Results.noValues st errc i0 i1).TXBUF = [] := rfl
@[simp] theorem noValues_R_WADDR : (Results.noValues st errc i0 i1).R_WADDR = none := rfl
@[simp] theorem noValues_R_ADDR : (Results.noValues st errc i0 i1).R_ADDR = none := rfl
@[simp] theorem noValues_R_CC : (Results.noValues st errc i0 i1).R_CC = none := rfl
@[simp] theorem noValues_R_PLEN : (Results.noValues st errc i0 i1).R_PLEN = none := rfl
@[simp] theorem noValues_R_PAY : (Results.noValues st errc i0 i1).R_PAY = [] := rfl
@[simp] theorem noValues_R_CSRX : (Results.noValues st errc i0 i1).R_CSRX = none := rfl
@[simp] theorem noValues_R_CSCALC : (Results.noValues st errc i0 i1).R_CSCALC = none := rfl
@[simp] theorem noValues_R_NF : (Results.noValues st errc i0 i1).R_NF = none := rfl
@[simp] theorem noValues_R_F : (Results.noValues st errc i0 i1).R_F = [] := rfl
@[simp] theorem noValues_R_HIT : (Results.noValues st errc i0 i1).R_HIT = none := rfl
@[simp] theorem noValues_R_DESC : (Results.noValues st errc i0 i1).R_DESC = none := rfl

end NoValues

/-- A successful operation's base is `ST` = 0x01, or 0x05 with `CC_KNOWN`, and nothing else. -/
theorem completed_eq (k : Bool) :
    Results.completed k = Results.noValues (if k then 0x05 else 0x01) 0 0 0 := by
  cases k <;> rfl

/-- An error's results are `ST` = 0x03, the code and the two info words, and nothing else. -/
theorem ofError_eq (e : Raised) :
    Results.ofError e = Results.noValues 0x03 e.err.code e.info0 e.info1 := rfl

section Updates
variable (s : State) (e : Raised) (o : Except Raised Results)

@[simp] theorem raiseError_cfg : (raiseError e s).cfg = s.cfg := rfl
@[simp] theorem raiseError_opr : (raiseError e s).opr = s.opr := rfl
@[simp] theorem raiseError_res : (raiseError e s).res = Results.ofError e := rfl

@[simp] theorem illegalOp_cfg : (illegalOp s).cfg = s.cfg := rfl
@[simp] theorem illegalOp_opr : (illegalOp s).opr = s.opr := rfl

@[simp] theorem settle_cfg : (settle o s).cfg = s.cfg := by cases o <;> rfl
@[simp] theorem settle_opr : (settle o s).opr = s.opr := by cases o <;> rfl
@[simp] theorem settle_ok_res (r : Results) : (settle (.ok r) s).res = r := rfl
@[simp] theorem settle_error_res : (settle (.error e) s).res = Results.ofError e := rfl

/-- Settling changes the result registers only. -/
theorem settle_eq : settle o s = { s with res := (settle o s).res } := by cases o <;> rfl

@[simp] theorem withFetchWord_OPC (n w : Nat) :
    (s.withFetchWord n w).opr.OPC = BitVec.ofNat 8 w := rfl
@[simp] theorem withFetchWord_cfg (n w : Nat) : (s.withFetchWord n w).cfg = s.cfg := rfl
@[simp] theorem withFetchWord_res (n w : Nat) : (s.withFetchWord n w).res = s.res := rfl

end Updates

/-! ### The variant register and the host's reads -/

@[simp] theorem variantOfBit_variantBit (v : Variant) : variantOfBit (variantBit v) = v := by
  cases v <;> rfl

@[simp] theorem variantBit_variantOfBit (b : BitVec 1) : variantBit (variantOfBit b) = b := by
  revert b; decide

@[simp] theorem hostRead_variant (s : State) :
    hostRead .variant s = .ok (.bit (variantBit s.cfg.VARIANT)) := rfl

@[simp] theorem hostRead_result (reg : ResultReg) (s : State) :
    hostRead (.result reg) s = ResultReg.read s.res reg := rfl

@[simp] theorem constructed_cfg (g : Configuration) : (State.constructed g).cfg = g := rfl
@[simp] theorem constructed_opr (g : Configuration) :
    (State.constructed g).opr = Operands.reset := rfl
@[simp] theorem constructed_res (g : Configuration) :
    (State.constructed g).res = Results.noValues 0 0 0 0 := rfl

/-- Reset is a construction, at the strap and the registry of the configuration and the parameter's
default. -/
theorem construct_reset :
    construct (some Config.variantSel) Config.builtInRegistry = .next State.reset := by
  have h : Config.builtInRegistry.wf = true := by
    unfold Config.builtInRegistry
    split
    · assumption
    · decide
  rw [construct, if_pos h]
  rfl

section WithFields
variable (fs : List FieldRecord) (r : Results)

@[simp] theorem withFields_R_NF : (withFields fs r).R_NF = some (BitVec.ofNat 8 fs.length) := rfl
@[simp] theorem withFields_R_F : (withFields fs r).R_F = fs := rfl
@[simp] theorem withFields_ST : (withFields fs r).ST = r.ST := rfl
@[simp] theorem withFields_ERRC : (withFields fs r).ERRC = r.ERRC := rfl

end WithFields

/-- Two states are equal when their three parts are. -/
theorem State.ext_parts {s t : State} (hc : s.cfg = t.cfg) (ho : s.opr = t.opr)
    (hr : s.res = t.res) : s = t := by
  cases s; cases t; simp_all

end Sys2Proof.Machine
end

