-- ==== Sys2Proof/Laws/Operations.lean ====
section
/-! SUPPORT. What a run of an operation can do, said once: the shared shape of every arm of `exec`, and
one lemma per operand form. -/

namespace Sys2Proof.Machine

/-- The operation behind each instruction. -/
def operationOf : Instr → Configuration → Operands → Except Raised Results
  | .aenc => aenc
  | .adec => adec
  | .rlook => rlook
  | .fext => fext
  | .csum => csum
  | .bread => bread
  | .bwrite => bwrite
  | .bmread => bmread
  | .bbcast => bbcast
  | .bctrl => bctrl
  | .parse => parse

/-- The instructions whose operation reads `DBUF` (spec/20_memory.md R30). -/
def readsData : Instr → Bool
  | .fext | .csum | .bwrite | .bbcast | .parse => true
  | _ => false

/-- The result registers an outcome leaves. -/
def resultsOf : Except Raised Results → Results
  | .ok r => r
  | .error e => Results.ofError e

@[simp] theorem resultsOf_ok (r : Results) : resultsOf (.ok r) = r := rfl
@[simp] theorem resultsOf_error (e : Raised) : resultsOf (.error e) = Results.ofError e := rfl

theorem settle_eq_results (o : Except Raised Results) (s : State) :
    settle o s = { s with res := resultsOf o } := by cases o <;> rfl

theorem runOperation_eq (f : Configuration → Operands → Except Raised Results) (s : State) :
    runOperation f s = .next { s with res := resultsOf (f s.cfg s.opr) } := by
  rw [runOperation, settle_eq_results]

theorem runDataOperation_eq (f : Configuration → Operands → Except Raised Results) {s : State}
    (h : s.opr.DLEN.toNat ≤ DCAP) :
    runDataOperation f s = .next { s with res := resultsOf (f s.cfg s.opr) } := by
  rw [runDataOperation, if_pos h, runOperation_eq]

theorem runDataOperation_refused (f : Configuration → Operands → Except Raised Results) {s : State}
    (h : DCAP < s.opr.DLEN.toNat) : runDataOperation f s = .refused .dlenAboveDcap :=
  if_neg (by omega)

/-- What every arm of `exec` is: the instruction's operation on configuration and operands, refused
only where more than `DCAP` bytes are presented to one that reads them. -/
theorem exec_eq (i : Instr) (s : State)
    (h : readsData i = true → s.opr.DLEN.toNat ≤ DCAP) :
    exec i s = .next { s with res := resultsOf (operationOf i s.cfg s.opr) } := by
  cases i
  case fext | csum | bwrite | bbcast | parse => exact runDataOperation_eq _ (h rfl)
  all_goals exact runOperation_eq _ s

theorem exec_refused (i : Instr) (s : State) (h : readsData i = true)
    (hd : DCAP < s.opr.DLEN.toNat) : exec i s = .refused .dlenAboveDcap := by
  cases i
  case fext | csum | bwrite | bbcast | parse => exact runDataOperation_refused _ hd
  all_goals exact absurd h Bool.false_ne_true

/-- The inversion of `exec`: it answers a next state only that way. -/
theorem exec_next {i : Instr} {s t : State} (h : exec i s = .next t) :
    (readsData i = true → s.opr.DLEN.toNat ≤ DCAP) ∧
      t = { s with res := resultsOf (operationOf i s.cfg s.opr) } := by
  by_cases hd : readsData i = true → s.opr.DLEN.toNat ≤ DCAP
  · rw [exec_eq i s hd] at h
    exact ⟨hd, (Host.Outcome.next.inj h).symm⟩
  · push Not at hd
    rw [exec_refused i s hd.1 hd.2] at h
    cases h

/-- The inversion of `step`. -/
theorem step_next {s t : State} (h : step s = .next t) :
    (∃ i, decode (commandWord s) = .ok i ∧ exec i s = .next t) ∨
      (∃ e, decode (commandWord s) = .error e ∧ t = illegalOp s) := by
  unfold step at h
  split at h
  · exact .inl ⟨_, ‹_›, h⟩
  · exact .inr ⟨_, ‹_›, (Host.Outcome.next.inj h).symm⟩

/-! ### The host's port -/

/-- What a construction that succeeds can do: the strap is driven, the registry well-formed, and the
block has exactly the configuration asked for. -/
theorem construct_next {sel : Option (BitVec 1)} {r : Registry} {cc : Byte} {s : State}
    (h : construct sel r cc = .next s) : ∃ b, sel = some b ∧ r.wf = true ∧
      s = State.constructed ⟨variantOfBit b, r, cc⟩ := by
  cases sel with
  | none => cases h
  | some b =>
    simp only [construct] at h
    split_ifs at h with hr
    cases h
    exact ⟨b, rfl, hr, rfl⟩

/-- A write of the host changes operand registers only. -/
theorem hostWrite_next {w : HostWrite} {s t : State} (h : hostWrite w s = .next t) :
    t = { s with opr := t.opr } := by
  cases w <;> simp only [hostWrite] at h
  case dlen | dbuf =>
    split_ifs at h
    cases h
    rfl
  all_goals
    cases h
    rfl

/-- At an offset that exists, a read of a result register faults for want of a value exactly where it
holds none. -/
theorem read_eq_noValue {r : Results} {reg : ResultReg} (ha : ResultReg.addressFault reg = none) :
    ResultReg.read r reg = .error (.noValue reg) ↔ ResultReg.value r reg = none := by
  unfold ResultReg.read
  rw [ha]
  cases ResultReg.value r reg <;> simp

section Checks

@[simp] theorem require_true (e : Raised) : require true e = .ok () := rfl
@[simp] theorem require_false (e : Raised) : require false e = .error e := rfl

@[simp] theorem except_ok_bind {α β : Type} (a : α) (f : α → Except Raised β) :
    ((Except.ok a : Except Raised α) >>= f) = f a := rfl

@[simp] theorem except_error_bind {α β : Type} (e : Raised) (f : α → Except Raised β) :
    ((Except.error e : Except Raised α) >>= f) = .error e := rfl

@[simp] theorem except_pure {α : Type} (a : α) : (pure a : Except Raised α) = .ok a := rfl

variable {o : Operands} {v : Variant}

theorem addressOperand_ok (h : validAddress o) : addressOperand o = .ok (canonicalBytes o) := by
  simp only [addressOperand, decide_eq_true h, require_true, except_ok_bind, except_pure]

theorem addressOperand_error (h : ¬ validAddress o) :
    addressOperand o = .error ⟨.invalidAddress, 0, o.A_LEN.zeroExtend 16⟩ := by
  simp only [addressOperand, decide_eq_false h, require_false, except_error_bind]

theorem identifierOperand_ok {k : Fin 64} (h : (o.ID_LEN[k]).toNat = idw v) :
    identifierOperand v o k = .ok ((o.ID_B[k]).toList.take (idw v)) := by
  simp only [identifierOperand, decide_eq_true h, require_true, except_ok_bind, except_pure]

theorem identifierOperand_error {k : Fin 64} (h : (o.ID_LEN[k]).toNat ≠ idw v) :
    identifierOperand v o k = .error ⟨.invalidFieldIdentifier, BitVec.ofNat 16 (1 + k.val),
      (o.ID_LEN[k]).zeroExtend 16⟩ := by
  simp only [identifierOperand, decide_eq_false h, require_false, except_error_bind]

/-- Every slot well-shaped: the identifiers in their order. -/
theorem identifierOperands_ok {ks : List (Fin 64)}
    (h : ∀ k ∈ ks, (o.ID_LEN[k]).toNat = idw v) :
    identifierOperands v o ks = .ok (ks.map fun k => (o.ID_B[k]).toList.take (idw v)) := by
  induction ks with
  | nil => rfl
  | cons k ks ih =>
    simp only [identifierOperands, identifierOperand_ok (h k (by simp)),
      ih fun j hj => h j (by simp [hj]), except_ok_bind, except_pure, List.map_cons]

/-- The first ill-shaped slot of a list gives the error. -/
theorem identifierOperands_error {before after : List (Fin 64)} {k : Fin 64}
    (hb : ∀ j ∈ before, (o.ID_LEN[j]).toNat = idw v) (hk : (o.ID_LEN[k]).toNat ≠ idw v) :
    identifierOperands v o (before ++ k :: after) = .error ⟨.invalidFieldIdentifier,
      BitVec.ofNat 16 (1 + k.val), (o.ID_LEN[k]).zeroExtend 16⟩ := by
  induction before with
  | nil =>
    simp only [List.nil_append, identifierOperands, identifierOperand_error hk, except_error_bind]
  | cons j before ih =>
    simp only [List.cons_append, identifierOperands, identifierOperand_ok (hb j (by simp)),
      ih fun i hi => hb i (by simp [hi]), except_ok_bind, except_error_bind]

theorem payloadBound_ok {n : Nat} (h : n ≤ 255) : payloadBound n = .ok () := by
  have h' : n ≤ MAXPAYLOAD := h
  simp only [payloadBound, decide_eq_true h', require_true]

theorem payloadBound_error {n : Nat} (h : 255 < n) :
    payloadBound n = .error ⟨.payloadTooLong, BitVec.ofNat 16 n, 255⟩ := by
  have h' : ¬ n ≤ MAXPAYLOAD := Nat.not_le.2 h
  simp only [payloadBound, decide_eq_false h', require_false]

/-- A sequence of two computations succeeds only where both do. -/
theorem except_bind_eq_ok {α β : Type} {x : Except Raised α} {f : α → Except Raised β} {r : β}
    (h : (x >>= f) = .ok r) : ∃ a, x = .ok a ∧ f a = .ok r := by
  cases x with
  | ok a => exact ⟨a, rfl, h⟩
  | error e => cases h

/-- A sequence of two computations fails where the first fails, or the second after it. -/
theorem except_bind_eq_error {α β : Type} {x : Except Raised α} {f : α → Except Raised β}
    {e : Raised} (h : (x >>= f) = .error e) : x = .error e ∨ ∃ a, x = .ok a ∧ f a = .error e := by
  cases x with
  | ok a => exact .inr ⟨a, rfl, h⟩
  | error e' => cases h; exact .inl rfl

theorem require_eq_ok {c : Bool} {e : Raised} {u : Unit} (h : require c e = .ok u) : c = true := by
  cases c
  · cases h
  · rfl

theorem require_eq_error {c : Bool} {e e' : Raised} (h : require c e = .error e') : e' = e := by
  cases c
  · cases h; rfl
  · cases h

theorem addressOperand_eq_ok {bytes : Vector Byte 6} (h : addressOperand o = .ok bytes) :
    validAddress o ∧ bytes = canonicalBytes o := by
  by_cases hv : validAddress o
  · rw [addressOperand_ok hv] at h
    exact ⟨hv, (Except.ok.inj h).symm⟩
  · rw [addressOperand_error hv] at h
    cases h

theorem identifierOperand_eq_ok {k : Fin 64} {id : List Byte}
    (h : identifierOperand v o k = .ok id) :
    (o.ID_LEN[k]).toNat = idw v ∧ id = (o.ID_B[k]).toList.take (idw v) := by
  by_cases hv : (o.ID_LEN[k]).toNat = idw v
  · rw [identifierOperand_ok hv] at h
    exact ⟨hv, (Except.ok.inj h).symm⟩
  · rw [identifierOperand_error hv] at h
    cases h

theorem identifierOperands_eq_ok {ks : List (Fin 64)} {ids : List (List Byte)}
    (h : identifierOperands v o ks = .ok ids) :
    (∀ k ∈ ks, (o.ID_LEN[k]).toNat = idw v) ∧
      ids = ks.map fun k => (o.ID_B[k]).toList.take (idw v) := by
  induction ks generalizing ids with
  | nil => cases h; simp
  | cons k ks ih =>
    obtain ⟨id, h1, h⟩ := except_bind_eq_ok h
    obtain ⟨ids', h2, h⟩ := except_bind_eq_ok h
    cases h
    obtain ⟨hk, rfl⟩ := identifierOperand_eq_ok h1
    obtain ⟨hks, rfl⟩ := ih h2
    exact ⟨List.forall_mem_cons.2 ⟨hk, hks⟩, rfl⟩

theorem payloadBound_eq_ok {n : Nat} {u : Unit} (h : payloadBound n = .ok u) : n ≤ 255 :=
  of_decide_eq_true (require_eq_ok h)

end Checks

section Widths

theorem zeroExtend_eq_ofNat (b : Byte) : b.zeroExtend 16 = BitVec.ofNat 16 b.toNat := by
  apply BitVec.eq_of_toNat_eq
  have := b.isLt
  simp [BitVec.toNat_setWidth]

/-- The identifier width is 4 or 6. -/
theorem idw_cases (v : Variant) : idw v = 4 ∨ idw v = 6 := by cases v <;> simp [idw]

theorem idw_le (v : Variant) : idw v ≤ 6 := by cases v <;> simp [idw]

theorem four_le_idw (v : Variant) : 4 ≤ idw v := by cases v <;> simp [idw]

theorem minLen_cases (v : Variant) : minLen v = 13 ∨ minLen v = 14 := by cases v <;> simp [minLen]

theorem minLen_le_idw (v : Variant) : minLen v ≤ 11 + idw v := by cases v <;> simp [minLen, idw]

/-- A well-shaped identifier has `IDW` bytes. -/
theorem slot_length (v : Variant) (bytes : Vector Byte 6) :
    (bytes.toList.take (idw v)).length = idw v := by
  simpa using idw_le v

end Widths

end Sys2Proof.Machine
end

