-- ==== Sys2Proof/Laws/Checksum.lean ====
section
/-! SUPPORT. The algebra of the exclusive or and the address transform. -/

namespace Sys2Proof.Machine

theorem xorAll_foldl (l : List Byte) (a : Byte) : l.foldl (· ^^^ ·) a = a ^^^ xorAll l := by
  unfold xorAll
  induction l generalizing a with
  | nil => simp
  | cons b l ih =>
    rw [List.foldl_cons, List.foldl_cons, ih, ih (0 ^^^ b), BitVec.xor_assoc]
    simp

@[simp] theorem xorAll_nil : xorAll [] = 0 := rfl

@[simp] theorem xorAll_cons (b : Byte) (l : List Byte) : xorAll (b :: l) = b ^^^ xorAll l := by
  rw [xorAll, List.foldl_cons, xorAll_foldl]
  simp

@[simp] theorem xorAll_append (l l' : List Byte) : xorAll (l ++ l') = xorAll l ^^^ xorAll l' := by
  induction l with
  | nil => simp
  | cons b l ih => simp [ih, BitVec.xor_assoc]

/-- Changing one byte by a difference changes the exclusive or by the same difference. -/
theorem xorAll_set (l : List Byte) (k : Nat) (hk : k < l.length) (d : Byte) :
    xorAll (l.set k (l[k] ^^^ d)) = xorAll l ^^^ d := by
  induction l generalizing k with
  | nil => simp at hk
  | cons b l ih =>
    cases k with
    | zero => simp [BitVec.xor_assoc, BitVec.xor_comm d]
    | succ k =>
      have := ih k (by simpa using hk)
      simp [this, BitVec.xor_assoc]

/-- The checksum is the exclusive or of the header and the payload (spec/42_checksum.md R111). -/
theorem checksum_eq (address : Vector Byte 6) (cc len : Byte) (p : List Byte) :
    checksum address cc len p = xorAll address.toList ^^^ (cc ^^^ (len ^^^ xorAll p)) := by
  simp [checksum]

@[simp] theorem transform_getElem (bytes : Vector Byte 6) (i : Nat) (hi : i < 6) :
    (transform bytes)[i] = ~~~ bytes[5 - i] := by
  simp only [transform, Vector.getElem_ofFn]
  bv_omega

/-- `T` is an involution (40_address_codec.md R84 (a)). -/
theorem transform_transform (bytes : Vector Byte 6) : transform (transform bytes) = bytes := by
  ext i hi
  have : 5 - (5 - i) = i := by omega
  simp [this]

/-- A vector of six bytes, written out. -/
theorem vector_six_toList (bytes : Vector Byte 6) :
    bytes.toList = [bytes[0], bytes[1], bytes[2], bytes[3], bytes[4], bytes[5]] := by
  apply List.ext_getElem
  · simp
  · intro i h1 h2
    simp only [Vector.length_toList] at h1
    interval_cases i <;> simp

/-- Six complements cancel under the exclusive or (R84 (d)). -/
theorem xorAll_transform (bytes : Vector Byte 6) :
    xorAll (transform bytes).toList = xorAll bytes.toList := by
  rw [vector_six_toList, vector_six_toList]
  simp only [transform_getElem, xorAll_cons, xorAll_nil]
  ext i hi
  simp only [BitVec.getElem_xor, BitVec.getElem_not]
  cases bytes[0][i] <;> cases bytes[1][i] <;> cases bytes[2][i] <;> cases bytes[3][i] <;>
    cases bytes[4][i] <;> cases bytes[5][i] <;> simp

end Sys2Proof.Machine
end

