-- ==== Sys2Proof/Laws/Address.lean ====
section
/-! SUPPORT. The hexadecimal primitives and the address string. -/

namespace Sys2Proof.Machine

/-- The characters with a hexadecimal value, and that value (spec/00_scope.md R8). -/
theorem hexVal_eq_some {ch : Byte} {n : Nat} : hexVal ch = some n ↔
    (0x30 ≤ ch.toNat ∧ ch.toNat ≤ 0x39 ∧ ch.toNat = 0x30 + n) ∨
    (0x41 ≤ ch.toNat ∧ ch.toNat ≤ 0x46 ∧ ch.toNat + 10 = 0x41 + n) ∨
    (0x61 ≤ ch.toNat ∧ ch.toNat ≤ 0x66 ∧ ch.toNat + 10 = 0x61 + n) := by
  unfold hexVal
  split_ifs <;> simp only [Option.some.injEq, false_iff] <;> omega

theorem hexVal_lt {ch : Byte} {n : Nat} (h : hexVal ch = some n) : n ≤ 15 := by
  have := hexVal_eq_some.1 h
  omega

theorem hexVal_hexChar (n : BitVec 4) : hexVal (hexChar n) = some n.toNat := by
  revert n; decide

/-- A character `hexChar` gives is an upper-case digit. -/
theorem hexChar_upper (n : BitVec 4) :
    (n.toNat ≤ 9 ∧ (hexChar n).toNat = 0x30 + n.toNat) ∨
      (10 ≤ n.toNat ∧ n.toNat ≤ 15 ∧ (hexChar n).toNat + 10 = 0x41 + n.toNat) := by
  revert n; decide

theorem byteOf_toNat {hi lo : Byte} {m n : Nat} (h : hexVal hi = some m) (h' : hexVal lo = some n) :
    (byteOf hi lo).toNat = 16 * m + n := by
  have := hexVal_lt h
  have := hexVal_lt h'
  simp only [byteOf, h, h', Option.getD_some, BitVec.toNat_ofNat]
  omega

/-- `byte_of(chars_of(b)) = b` (92_eei_decisions.md D30). -/
theorem byteOf_chars (b : Byte) : byteOf (highChar b) (lowChar b) = b := by
  revert b; decide

/-- A byte is its two nibbles. -/
theorem nibbles_toNat (b : Byte) :
    16 * (b.extractLsb' 4 4).toNat + (b.extractLsb' 0 4).toNat = b.toNat := by
  revert b; decide

section CanonicalChars
variable (bytes : Vector Byte 6)

theorem canonicalChars_even (i : Fin 6) :
    (canonicalChars bytes)[2 * i.val] = highChar bytes[i.val] := by
  simp [canonicalChars]

theorem canonicalChars_odd (i : Fin 6) :
    (canonicalChars bytes)[2 * i.val + 1] = lowChar bytes[i.val] := by
  simp only [canonicalChars, Vector.getElem_ofFn]
  rw [if_neg (by omega)]
  simp only [show (2 * i.val + 1) / 2 = i.val by omega]

/-- The characters of a canonical string are hexadecimal. -/
theorem canonicalChars_hex (i : Fin 12) : (hexVal (canonicalChars bytes)[i]).isSome = true := by
  simp only [Fin.getElem_fin, canonicalChars, Vector.getElem_ofFn]
  split_ifs <;> simp [highChar, lowChar, hexVal_hexChar]

end CanonicalChars

section Strings
variable {o : Operands}

/-- The canonical bytes of a canonical string are the bytes it was made of. -/
theorem canonicalBytes_of_chars {bytes : Vector Byte 6} (h : o.A_CH = canonicalChars bytes) :
    canonicalBytes o = bytes := by
  ext1 i hi
  have he := canonicalChars_even bytes ⟨i, hi⟩
  have ho := canonicalChars_odd bytes ⟨i, hi⟩
  simp only [canonicalBytes, h, Vector.getElem_ofFn, he, ho, byteOf_chars]

/-- The digits of a valid string. -/
theorem validAddress_digits (h : validAddress o) (i : Fin 6) : ∃ m n,
    hexVal (o.A_CH[2 * i.val]) = some m ∧ hexVal (o.A_CH[2 * i.val + 1]) = some n ∧
      (canonicalBytes o)[i.val] = byteOf (o.A_CH[2 * i.val]) (o.A_CH[2 * i.val + 1]) ∧
      ((canonicalBytes o)[i.val]).toNat = 16 * m + n := by
  obtain ⟨m, hm⟩ := Option.isSome_iff_exists.1 (h.2 ⟨2 * i.val, by omega⟩)
  obtain ⟨n, hn⟩ := Option.isSome_iff_exists.1 (h.2 ⟨2 * i.val + 1, by omega⟩)
  have hc : (canonicalBytes o)[i.val] = byteOf (o.A_CH[2 * i.val]) (o.A_CH[2 * i.val + 1]) := by
    simp [canonicalBytes]
  exact ⟨m, n, hm, hn, hc, by rw [hc]; exact byteOf_toNat hm hn⟩

end Strings

/-- The restored string of a transformed address is the canonical string of its bytes. -/
theorem restore_transform (bytes : Vector Byte 6) :
    restoreAddress (transform bytes) = canonicalChars bytes := by
  rw [restoreAddress, transform_transform]

end Sys2Proof.Machine
end

