-- ==== Sys2Proof/Laws/Builder.lean ====
section
/-! SUPPORT. The bytes of a built frame, and what each builder gives in each case of its checks. -/

namespace Sys2Proof.Machine

section Frame
variable (wire : Vector Byte 6) (cc : Byte) (p : List Byte)

theorem frameBytes_length : (frameBytes wire cc p).length = 11 + p.length := by
  simp only [frameBytes, List.length_append, List.length_singleton, Vector.length_toList]
  omega

/-- A frame, written out. -/
theorem frameBytes_eq : frameBytes wire cc p =
    startMarker :: wire[0] :: wire[1] :: wire[2] :: wire[3] :: wire[4] :: wire[5] :: cc ::
      BitVec.ofNat 8 p.length ::
        (p ++ [checksum wire cc (BitVec.ofNat 8 p.length) p, endMarker]) := by
  simp only [frameBytes, vector_six_toList]
  simp

theorem length_byte (h : p.length ≤ 255) : (BitVec.ofNat 8 p.length).toNat = p.length := by
  simp only [BitVec.toNat_ofNat]
  omega

theorem frameBytes_isFrame (h : p.length ≤ 255) : IsFrame (frameBytes wire cc p) := by
  have hlen := frameBytes_length wire cc p
  rw [frameBytes_eq] at hlen ⊢
  have h1 : 11 + p.length - 1 = 9 + p.length + 1 := by omega
  have h2 : 11 + p.length - 2 = 9 + p.length := by omega
  constructor
  · rw [hlen]
    simp only [byteAt, List.getD_cons_succ, List.getD_cons_zero, length_byte p h]
    omega
  · rfl
  · rw [hlen, h1, show 9 + p.length + 1 = p.length + 1 + 9 by omega]
    simp [byteAt, List.getD_eq_getElem?_getD]
  · rw [hlen, h2, show 9 + p.length = p.length + 9 by omega]
    have hs : slice (startMarker :: wire[0] :: wire[1] :: wire[2] :: wire[3] :: wire[4] :: wire[5] :: cc ::
        BitVec.ofNat 8 p.length :: (p ++ [checksum wire cc (BitVec.ofNat 8 p.length) p, endMarker]))
          1 (p.length + 9) =
        wire[0] :: wire[1] :: wire[2] :: wire[3] :: wire[4] :: wire[5] :: cc ::
          BitVec.ofNat 8 p.length :: p := by
      simp only [slice, List.drop_succ_cons, List.drop_zero,
        show p.length + 9 - 1 = p.length + 8 by omega, List.take_succ_cons]
      simp
    rw [hs]
    simp [byteAt, List.getD_eq_getElem?_getD, checksum_eq, vector_six_toList, BitVec.xor_assoc]

/-- `TXBUF` after an emission holds the frame, in the canonical form. -/
theorem emit_holds (h : p.length ≤ 255) :
    Memory.Holds .txbuf (emit wire cc p).TXBUF (frameBytes wire cc p) :=
  Memory.holds_write rfl (by rw [frameBytes_length, Space.size, TXCAP]; omega)

theorem emit_wf (h : p.length ≤ 255) : Memory.wf .txbuf (emit wire cc p).TXBUF :=
  Memory.wf_write _ (Memory.wf_nil _) (by rw [frameBytes_length, Space.size, TXCAP]; omega)

@[simp] theorem emit_TXLEN :
    (emit wire cc p).TXLEN = some (BitVec.ofNat 16 (11 + p.length)) := rfl

@[simp] theorem emit_ERRC : (emit wire cc p).ERRC = 0 := rfl

/-- An emission writes `TXLEN` and `TXBUF` and nothing else (spec/43_frame_builder.md R129). -/
theorem emit_eq : emit wire cc p = { Results.noValues 0x01 0 0 0 with
    TXLEN := some (BitVec.ofNat 16 (11 + p.length)), TXBUF := (emit wire cc p).TXBUF } := rfl

end Frame

section Cases
variable {g : Configuration} {o : Operands}

theorem firstSlots_mem {n : Nat} {k : Fin 64} : k ∈ firstSlots n ↔ k.val < n := by
  simp only [firstSlots, List.mem_take_iff_getElem, List.length_finRange]
  constructor
  · rintro ⟨i, hi, rfl⟩
    simp only [List.getElem_finRange, Fin.val_cast]
    omega
  · intro h
    exact ⟨k.val, by omega, by simp⟩

theorem firstSlots_length {n : Nat} (h : n ≤ 64) : (firstSlots n).length = n := by
  simpa [firstSlots] using h

/-- A slot splits the first slots into those below it and those above it. -/
theorem firstSlots_split {n : Nat} {k : Fin 64} (h : k.val < n) :
    ∃ before after, firstSlots n = before ++ k :: after ∧ ∀ j ∈ before, j < k := by
  have hlen : k.val < (firstSlots n).length := by simp [firstSlots]; omega
  have hk : (firstSlots n)[k.val] = k := by simp [firstSlots]
  refine ⟨(firstSlots n).take k.val, (firstSlots n).drop (k.val + 1), ?_, ?_⟩
  · conv_lhs => rw [← List.take_append_drop k.val (firstSlots n), List.drop_eq_getElem_cons hlen, hk]
  · intro j hj
    rw [firstSlots, List.take_take] at hj
    have := firstSlots_mem.1 hj
    exact Fin.lt_def.2 (by omega)

/-- The payload of a multi-read has `NID * IDW` bytes (43_frame_builder.md R125). -/
theorem multiread_length {v : Variant} (ks : List (Fin 64)) :
    ((ks.map fun k => (o.ID_B[k]).toList.take (idw v)).flatten).length = ks.length * idw v := by
  induction ks with
  | nil => simp
  | cons k ks ih =>
    rw [List.map_cons, List.flatten_cons, List.length_append, ih, slot_length, List.length_cons]
    ring

/-- What BREAD leaves when it succeeds. -/
theorem bread_eq_ok {r : Results} (h : bread g o = .ok r) : validAddress o ∧
    (o.ID_LEN[(0 : Fin 64)]).toNat = idw g.VARIANT ∧
    r = emit (transform (canonicalBytes o)) readCC
      ((o.ID_B[(0 : Fin 64)]).toList.take (idw g.VARIANT)) := by
  obtain ⟨_, ha, h⟩ := except_bind_eq_ok h
  obtain ⟨_, hid, h⟩ := except_bind_eq_ok h
  obtain ⟨hv, rfl⟩ := addressOperand_eq_ok ha
  obtain ⟨hs, rfl⟩ := identifierOperand_eq_ok hid
  exact ⟨hv, hs, (Except.ok.inj h).symm⟩

/-- What BWRITE leaves when it succeeds. -/
theorem bwrite_eq_ok {r : Results} (h : bwrite g o = .ok r) : validAddress o ∧
    (o.ID_LEN[(0 : Fin 64)]).toNat = idw g.VARIANT ∧ idw g.VARIANT + o.DLEN.toNat ≤ 255 ∧
    r = emit (transform (canonicalBytes o)) o.CC
      ((o.ID_B[(0 : Fin 64)]).toList.take (idw g.VARIANT) ++ presentedData o) := by
  obtain ⟨_, ha, h⟩ := except_bind_eq_ok h
  obtain ⟨_, hid, h⟩ := except_bind_eq_ok h
  obtain ⟨_, hb, h⟩ := except_bind_eq_ok h
  obtain ⟨hv, rfl⟩ := addressOperand_eq_ok ha
  obtain ⟨hs, rfl⟩ := identifierOperand_eq_ok hid
  exact ⟨hv, hs, payloadBound_eq_ok hb, (Except.ok.inj h).symm⟩

/-- What BMREAD leaves when it succeeds. -/
theorem bmread_eq_ok {r : Results} (h : bmread g o = .ok r) : validAddress o ∧
    o.NID.toNat ≤ 64 ∧ (∀ k ∈ firstSlots o.NID.toNat, (o.ID_LEN[k]).toNat = idw g.VARIANT) ∧
    o.NID.toNat * idw g.VARIANT ≤ 255 ∧
    r = emit (transform (canonicalBytes o)) readCC ((firstSlots o.NID.toNat).map fun k =>
      (o.ID_B[k]).toList.take (idw g.VARIANT)).flatten := by
  obtain ⟨_, ha, h⟩ := except_bind_eq_ok h
  obtain ⟨_, hn, h⟩ := except_bind_eq_ok h
  obtain ⟨_, hid, h⟩ := except_bind_eq_ok h
  obtain ⟨_, hb, h⟩ := except_bind_eq_ok h
  obtain ⟨hv, rfl⟩ := addressOperand_eq_ok ha
  obtain ⟨hs, rfl⟩ := identifierOperands_eq_ok hid
  exact ⟨hv, of_decide_eq_true (require_eq_ok hn), hs, payloadBound_eq_ok hb,
    (Except.ok.inj h).symm⟩

/-- What BBCAST leaves when it succeeds. -/
theorem bbcast_eq_ok {r : Results} (h : bbcast g o = .ok r) : o.DLEN.toNat ≤ 255 ∧
    r = emit broadcastWire o.CC (presentedData o) := by
  obtain ⟨_, hb, h⟩ := except_bind_eq_ok h
  exact ⟨payloadBound_eq_ok hb, (Except.ok.inj h).symm⟩

/-- What BCTRL leaves when it succeeds. -/
theorem bctrl_eq_ok {r : Results} (h : bctrl g o = .ok r) : validAddress o ∧
    (o.ID_LEN[(0 : Fin 64)]).toNat = idw g.VARIANT ∧
    r = emit (transform (canonicalBytes o)) (controlCC g)
      ((o.ID_B[(0 : Fin 64)]).toList.take (idw g.VARIANT) ++ [o.CMDB]) := by
  obtain ⟨_, ha, h⟩ := except_bind_eq_ok h
  obtain ⟨_, hid, h⟩ := except_bind_eq_ok h
  obtain ⟨hv, rfl⟩ := addressOperand_eq_ok ha
  obtain ⟨hs, rfl⟩ := identifierOperand_eq_ok hid
  exact ⟨hv, hs, (Except.ok.inj h).symm⟩

end Cases

end Sys2Proof.Machine
end

