-- ==== Sys2Proof/Laws/Registry.lean ====
section
/-! SUPPORT. The look-up, the decoding of one value, and what one pass and the whole loop of extraction
can do. -/

namespace Sys2Proof.Machine

variable {g : Configuration} {p : List Byte}

/-- A found descriptor is a row's, with the identifier as its key. -/
theorem lookup_some {id : List Byte} {d : Descriptor} (h : lookup g id = some d) :
    { key := id, desc := d } ∈ g.REGISTRY.rows g.VARIANT := by
  simp only [lookup, Option.map_eq_some_iff] at h
  obtain ⟨row, hrow, rfl⟩ := h
  have hkey := List.find?_some hrow
  simp only [beq_iff_eq] at hkey
  subst hkey
  exact List.mem_of_find?_eq_some hrow

/-- A missed look-up: no row has the identifier as its key. -/
theorem lookup_none {id : List Byte} :
    lookup g id = none ↔ ∀ row ∈ g.REGISTRY.rows g.VARIANT, row.key ≠ id := by
  simp [lookup]

theorem registry_rows_wf (h : g.REGISTRY.wf = true) :
    Registry.tableWf g.VARIANT (g.REGISTRY.rows g.VARIANT) = true := by
  simp only [Registry.wf, Bool.and_eq_true] at h
  cases hv : g.VARIANT
  · exact h.1
  · exact h.2

/-- In a well-formed registry a found descriptor's width is at most `MAXW`. -/
theorem lookup_width (hwf : g.REGISTRY.wf = true) {id : List Byte} {d : Descriptor}
    (h : lookup g id = some d) : d.byteWidth ≤ MAXW := by
  have ht := registry_rows_wf hwf
  simp only [Registry.tableWf, Bool.and_eq_true, List.all_eq_true] at ht
  have := ht.1 _ (lookup_some h)
  simp only [RegistryRow.wf, Descriptor.wf, Bool.and_eq_true, decide_eq_true_eq] at this
  exact this.2

section Values

theorem uintLE_lt (v : List Byte) : uintLE v < 256 ^ v.length := by
  induction v with
  | nil => simp [uintLE]
  | cons b v ih =>
    have := b.isLt
    simp only [uintLE, List.length_cons, Nat.pow_succ]
    omega

theorem uintBE_foldl (v : List Byte) (a : Nat) :
    v.foldl (fun acc b => 256 * acc + b.toNat) a = a * 256 ^ v.length + uintBE v := by
  unfold uintBE
  induction v generalizing a with
  | nil => simp
  | cons b v ih =>
    rw [List.foldl_cons, List.foldl_cons, ih, ih (256 * 0 + b.toNat), List.length_cons]
    ring

theorem uintBE_cons (b : Byte) (v : List Byte) :
    uintBE (b :: v) = b.toNat * 256 ^ v.length + uintBE v := by
  show v.foldl _ (256 * 0 + b.toNat) = _
  rw [uintBE_foldl, Nat.mul_zero, Nat.zero_add]

theorem uintBE_lt (v : List Byte) : uintBE v < 256 ^ v.length := by
  induction v with
  | nil => simp [uintBE]
  | cons b v ih =>
    rw [uintBE_cons, List.length_cons, Nat.pow_succ]
    have hb : b.toNat + 1 ≤ 256 := b.isLt
    have := Nat.mul_le_mul_right (256 ^ v.length) hb
    rw [Nat.add_mul, Nat.one_mul] at this
    omega

/-- A raw value fits its width (spec/30_encoding.md R67). -/
theorem uint_lt (v : List Byte) (order : ByteOrder) : uint v order < 256 ^ v.length := by
  cases order
  · exact uintBE_lt v
  · exact uintLE_lt v

end Values

section Slices

@[simp] theorem slice_length (i j : Nat) : (slice p i j).length = min (j - i) (p.length - i) := by
  simp [slice]

theorem slice_eq (i w : Nat) : slice p i (i + w) = (p.drop i).take w := by
  rw [slice, Nat.add_sub_cancel_left]

end Slices

section Pass

/-- Everything a pass that goes on can do (41_field_registry.md R102, R103). -/
theorem extractPass_some {c c' : Cursor} (h : extractPass g p c = some c') :
    c.pos + idw g.VARIANT ≤ p.length ∧
    ((lookup g ((p.drop c.pos).take (idw g.VARIANT)) = none ∧
        c' = { c with pos := c.pos + idw g.VARIANT }) ∨
      ∃ d, lookup g ((p.drop c.pos).take (idw g.VARIANT)) = some d ∧
        c.pos + idw g.VARIANT + d.byteWidth ≤ p.length ∧
        c' = { pos := c.pos + idw g.VARIANT + d.byteWidth
               out := c.out ++ [fieldRecord ((p.drop c.pos).take (idw g.VARIANT)) d
                 ((p.drop (c.pos + idw g.VARIANT)).take d.byteWidth)] }) := by
  simp only [extractPass, slice_eq] at h
  split at h
  · cases h
  · refine ⟨by omega, ?_⟩
    split at h
    · exact .inl ⟨‹_›, (Option.some.inj h).symm⟩
    · rename_i d hd
      split at h
      · cases h
      · exact .inr ⟨d, hd, by omega, (Option.some.inj h).symm⟩

/-- Everything a pass that stops can be (R104, R106). -/
theorem extractPass_none {c : Cursor} (h : extractPass g p c = none) :
    p.length < c.pos + idw g.VARIANT ∨
    ∃ d, c.pos + idw g.VARIANT ≤ p.length ∧
      lookup g ((p.drop c.pos).take (idw g.VARIANT)) = some d ∧
      p.length < c.pos + idw g.VARIANT + d.byteWidth := by
  simp only [extractPass, slice_eq] at h
  split at h
  · exact .inl ‹_›
  · split at h
    · cases h
    · rename_i d hd
      split at h
      · exact .inr ⟨d, by omega, hd, ‹_›⟩
      · cases h

/-- A pass that goes on moves the cursor by at least `IDW`, inside the payload (R108). -/
theorem extractPass_pos {c c' : Cursor} (h : extractPass g p c = some c') :
    c.pos + idw g.VARIANT ≤ c'.pos ∧ c'.pos ≤ p.length := by
  obtain ⟨hle, ⟨-, rfl⟩ | ⟨d, -, hw, rfl⟩⟩ := extractPass_some h
  · exact ⟨le_rfl, hle⟩
  · exact ⟨Nat.le_add_right _ _, hw⟩

/-- With enough passes allowed, allowing more changes nothing (R108). -/
theorem extractLoop_fuel (fuel fuel' : Nat) (c : Cursor)
    (h : (p.length - c.pos) / 4 + 1 ≤ fuel) (h' : (p.length - c.pos) / 4 + 1 ≤ fuel') :
    extractLoop g p fuel c = extractLoop g p fuel' c := by
  induction fuel generalizing fuel' c with
  | zero => omega
  | succ fuel ih =>
    obtain ⟨fuel', rfl⟩ : ∃ k, fuel' = k + 1 := ⟨fuel' - 1, by omega⟩
    simp only [extractLoop]
    cases hp : extractPass g p c with
    | none => rfl
    | some c' =>
      have hpos := extractPass_pos hp
      have := four_le_idw g.VARIANT
      exact ih fuel' c' (by omega) (by omega)

/-- An invariant of the cursor that every pass keeps holds of the records at the end. -/
theorem extractLoop_induct (P : Cursor → Prop) (fuel : Nat) (c : Cursor) (hc : P c)
    (hstep : ∀ c c', P c → extractPass g p c = some c' → P c') :
    ∃ c', P c' ∧ extractLoop g p fuel c = c'.out := by
  induction fuel generalizing c with
  | zero => exact ⟨c, hc, rfl⟩
  | succ fuel ih =>
    simp only [extractLoop]
    cases hp : extractPass g p c with
    | none => exact ⟨c, hc, rfl⟩
    | some c' => exact ih c' (hstep c c' hc hp)

/-- Each record takes at least four bytes of the payload (10_state.md R19). -/
theorem extract_length (g : Configuration) (p : List Byte) : 4 * (extract g p).length ≤ p.length := by
  obtain ⟨c', ⟨h1, h2⟩, heq⟩ := extractLoop_induct (g := g) (p := p)
    (fun c => 4 * c.out.length ≤ c.pos ∧ c.pos ≤ p.length) (p.length + 1) { pos := 0, out := [] }
    (by simp) fun c c' hc hp => by
      have hpos := extractPass_pos hp
      have hw := four_le_idw g.VARIANT
      obtain ⟨-, ⟨-, rfl⟩ | ⟨d, -, -, rfl⟩⟩ := extractPass_some hp
      · exact ⟨by simp only; omega, hpos.2⟩
      · exact ⟨by simp only [List.length_append, List.length_singleton]; omega, hpos.2⟩
  rw [extract, heq]
  omega

/-- Every record of an extraction is decoded by the registry (R100). -/
theorem extract_decoded (hwf : g.REGISTRY.wf = true) (p : List Byte) :
    ∀ f ∈ extract g p, FieldRecord.Decoded g f := by
  obtain ⟨c', hc', heq⟩ := extractLoop_induct (g := g) (p := p)
    (fun c => ∀ f ∈ c.out, FieldRecord.Decoded g f) (p.length + 1) { pos := 0, out := [] }
    (by simp) fun c c' hc hp => by
      obtain ⟨hle, ⟨-, rfl⟩ | ⟨d, hd, hw, rfl⟩⟩ := extractPass_some hp
      · exact hc
      · intro f hf
        rcases List.mem_append.1 hf with hf | hf
        · exact hc f hf
        · rw [List.mem_singleton] at hf
          subst hf
          have hlen : ((p.drop (c.pos + idw g.VARIANT)).take d.byteWidth).length = d.byteWidth := by
            simp only [List.length_take, List.length_drop]
            omega
          refine ⟨?_, ?_, d, _, hd, hlen, rfl⟩
          · simp only [fieldRecord, List.length_take, List.length_drop]
            omega
          · refine (uint_lt _ _).trans_le ?_
            rw [hlen]
            exact Nat.pow_le_pow_right (by norm_num) (lookup_width hwf hd)
  rw [extract, heq]
  exact hc'

end Pass

end Sys2Proof.Machine
end

