-- ==== Sys2Proof/Laws/Parser.lean ====
section
/-! SUPPORT. What the seven stages of PARSE come to: one equation for the whole machine, and the fact
that every buffer the first four stages pass is a built frame. -/

namespace Sys2Proof.Machine

variable (g : Configuration) (b : List Byte)

/-- The wire address of a received buffer (spec/44_frame_parser.md R143). -/
def bufferAddress : Vector Byte 6 := Vector.ofFn fun i => byteAt b (1 + i.val)

/-- The payload of a received buffer (R144). -/
def bufferPayload : List Byte := slice b 9 (9 + (byteAt b 8).toNat)

/-- The checksum byte of a received buffer (R144). -/
def bufferCheck : Byte := byteAt b (9 + (byteAt b 8).toNat)

/-- The checksum recomputed over a received buffer (R147). -/
def bufferCalc : Byte := checksum (bufferAddress b) (byteAt b 7) (byteAt b 8) (bufferPayload b)

/-- The result registers of an accepted buffer (R150). -/
def acceptedResults : Results :=
  { Results.completed (ccKnownOf g.VARIANT (byteAt b 7)) with
    R_ADDR := some (restoreAddress (bufferAddress b))
    R_CC := some (byteAt b 7)
    R_PLEN := some (byteAt b 8)
    R_PAY := Memory.write .rpay [] 0 (bufferPayload b)
    R_CSRX := some (bufferCheck b)
    R_CSCALC := some (bufferCalc b)
    R_NF := some (BitVec.ofNat 8 (extract g (bufferPayload b)).length)
    R_F := extract g (bufferPayload b) }

variable {g b}

theorem parseBuffer_short (h : b.length < minLen g.VARIANT) : parseBuffer g b =
    .error ⟨.frameTooShort, BitVec.ofNat 16 b.length, BitVec.ofNat 16 (minLen g.VARIANT)⟩ := by
  have h' : ¬ minLen g.VARIANT ≤ b.length := by omega
  simp [parseBuffer, Stage.inOrder, runStages, runStage, stageFloor, h']

theorem parseBuffer_delimiters (h1 : minLen g.VARIANT ≤ b.length)
    (h2 : ¬ (byteAt b 0 = startMarker ∧ byteAt b (b.length - 1) = endMarker)) : parseBuffer g b =
    .error ⟨.delimiterMismatch, (byteAt b 0).zeroExtend 16,
      (byteAt b (b.length - 1)).zeroExtend 16⟩ := by
  simp only [parseBuffer, Stage.inOrder, runStages, runStage, stageFloor, decide_eq_true h1,
    stageDelimiters, decide_eq_false h2, require_true, require_false, except_ok_bind,
    except_error_bind, except_pure]

/-- A length that fits 16 bits is its own info word. -/
theorem lengthWord_eq {n : Nat} (h : n < 65536) : lengthWord n = BitVec.ofNat 16 n := if_pos h

/-- Read as a number, the info word of a length that fits is the length. -/
theorem lengthWord_toNat {n : Nat} (h : n < 65536) : (lengthWord n).toNat = n := by
  rw [lengthWord_eq h, BitVec.toNat_ofNat, Nat.mod_eq_of_lt h]

theorem parseBuffer_length (h1 : minLen g.VARIANT ≤ b.length)
    (h2 : byteAt b 0 = startMarker ∧ byteAt b (b.length - 1) = endMarker)
    (h3 : expectedTotal (byteAt b 8) ≠ b.length) : parseBuffer g b =
    .error ⟨.lengthMismatch, BitVec.ofNat 16 (expectedTotal (byteAt b 8)),
      lengthWord b.length⟩ := by
  simp only [parseBuffer, Stage.inOrder, runStages, runStage, stageFloor, decide_eq_true h1,
    stageDelimiters, decide_eq_true h2, stageStructure, decide_eq_false h3, require_true,
    require_false, except_ok_bind, except_error_bind, except_pure]

theorem parseBuffer_checksum (h1 : minLen g.VARIANT ≤ b.length)
    (h2 : byteAt b 0 = startMarker ∧ byteAt b (b.length - 1) = endMarker)
    (h3 : expectedTotal (byteAt b 8) = b.length) (h4 : bufferCalc b ≠ bufferCheck b) :
    parseBuffer g b = .error ⟨.checksumMismatch, (bufferCalc b).zeroExtend 16,
      (bufferCheck b).zeroExtend 16⟩ := by
  unfold bufferCalc bufferAddress bufferPayload bufferCheck at *
  simp only [parseBuffer, Stage.inOrder, runStages, runStage, stageFloor, decide_eq_true h1,
    stageDelimiters, decide_eq_true h2, stageStructure, decide_eq_true h3, stageIntegrity,
    decide_eq_false h4, require_true, require_false, except_ok_bind, except_error_bind, except_pure]

theorem parseBuffer_accepted (h1 : minLen g.VARIANT ≤ b.length)
    (h2 : byteAt b 0 = startMarker ∧ byteAt b (b.length - 1) = endMarker)
    (h3 : expectedTotal (byteAt b 8) = b.length) (h4 : bufferCalc b = bufferCheck b) :
    parseBuffer g b = .ok (acceptedResults g b) := by
  unfold acceptedResults bufferCalc bufferAddress bufferPayload bufferCheck at *
  simp only [parseBuffer, Stage.inOrder, runStages, runStage, stageFloor, decide_eq_true h1,
    stageDelimiters, decide_eq_true h2, stageStructure, decide_eq_true h3, stageIntegrity,
    decide_eq_true h4, require_true, except_ok_bind, except_pure, parseResults, withFields]

/-- A buffer is accepted only with its four checks passed. -/
theorem parseBuffer_ok {r : Results} (h : parseBuffer g b = .ok r) :
    minLen g.VARIANT ≤ b.length ∧
    (byteAt b 0 = startMarker ∧ byteAt b (b.length - 1) = endMarker) ∧
    expectedTotal (byteAt b 8) = b.length ∧ bufferCalc b = bufferCheck b ∧
    r = acceptedResults g b := by
  by_cases h1 : minLen g.VARIANT ≤ b.length
  · by_cases h2 : byteAt b 0 = startMarker ∧ byteAt b (b.length - 1) = endMarker
    · by_cases h3 : expectedTotal (byteAt b 8) = b.length
      · by_cases h4 : bufferCalc b = bufferCheck b
        · rw [parseBuffer_accepted h1 h2 h3 h4] at h
          exact ⟨h1, h2, h3, h4, (Except.ok.inj h).symm⟩
        · rw [parseBuffer_checksum h1 h2 h3 h4] at h; cases h
      · rw [parseBuffer_length h1 h2 h3] at h; cases h
    · rw [parseBuffer_delimiters h1 h2] at h; cases h
  · rw [parseBuffer_short (by omega)] at h; cases h

/-- The four errors of PARSE, and no other (R151). -/
theorem parseBuffer_error {e : Raised} (h : parseBuffer g b = .error e) :
    e.err = .frameTooShort ∨ e.err = .delimiterMismatch ∨ e.err = .lengthMismatch ∨
      e.err = .checksumMismatch := by
  by_cases h1 : minLen g.VARIANT ≤ b.length
  · by_cases h2 : byteAt b 0 = startMarker ∧ byteAt b (b.length - 1) = endMarker
    · by_cases h3 : expectedTotal (byteAt b 8) = b.length
      · by_cases h4 : bufferCalc b = bufferCheck b
        · rw [parseBuffer_accepted h1 h2 h3 h4] at h; cases h
        · rw [parseBuffer_checksum h1 h2 h3 h4] at h; cases h; simp
      · rw [parseBuffer_length h1 h2 h3] at h; cases h; simp
    · rw [parseBuffer_delimiters h1 h2] at h; cases h; simp
  · rw [parseBuffer_short (by omega)] at h; cases h; simp

/-- Stages that pass one after another hand their registers to the stages after them. -/
theorem runStages_append {before after : List Stage} {r r' : ParseRegs}
    (h : runStages g b before r = .ok r') :
    runStages g b (before ++ after) r = runStages g b after r' := by
  induction before generalizing r with
  | nil => cases h; rfl
  | cons st before ih =>
    obtain ⟨_, h1, h2⟩ := except_bind_eq_ok h
    rw [List.cons_append, runStages, h1]
    exact ih h2

/-- A buffer of nine bytes or more, its header written out. -/
theorem header_bytes (h : 9 ≤ b.length) : ∃ b0 b1 b2 b3 b4 b5 b6 b7 b8 rest,
    b = b0 :: b1 :: b2 :: b3 :: b4 :: b5 :: b6 :: b7 :: b8 :: rest := by
  match b, h with
  | b0 :: b1 :: b2 :: b3 :: b4 :: b5 :: b6 :: b7 :: b8 :: rest, _ =>
    exact ⟨_, _, _, _, _, _, _, _, _, _, rfl⟩

/-- The bytes a received buffer's checksum covers (42_checksum.md R110). -/
theorem bufferCalc_eq_xorAll (h3 : expectedTotal (byteAt b 8) = b.length) :
    bufferCalc b = xorAll (slice b 1 (b.length - 2)) := by
  rw [← h3, expectedTotal]
  obtain ⟨b0, b1, b2, b3, b4, b5, b6, b7, b8, rest, rfl⟩ := header_bytes (b := b) (by
    unfold expectedTotal at h3; omega)
  have e8 : byteAt (b0 :: b1 :: b2 :: b3 :: b4 :: b5 :: b6 :: b7 :: b8 :: rest) 8 = b8 := rfl
  have hp : bufferPayload (b0 :: b1 :: b2 :: b3 :: b4 :: b5 :: b6 :: b7 :: b8 :: rest) =
      rest.take b8.toNat := by
    rw [bufferPayload, e8, slice_eq]; rfl
  have hs : slice (b0 :: b1 :: b2 :: b3 :: b4 :: b5 :: b6 :: b7 :: b8 :: rest) 1
      (9 + b8.toNat + 2 - 2) = b1 :: b2 :: b3 :: b4 :: b5 :: b6 :: b7 :: b8 :: rest.take b8.toNat := by
    rw [show 9 + b8.toNat + 2 - 2 = 1 + (b8.toNat + 8) by omega, slice_eq]; rfl
  rw [bufferCalc, checksum_eq, vector_six_toList, e8, hp, hs]
  simp [bufferAddress, byteAt, BitVec.xor_assoc]

section Components

theorem byteAt_eq_getElem {i : Nat} (h : i < b.length) : byteAt b i = b[i] := by
  simp [byteAt, List.getD_eq_getElem?_getD, h]

variable (wire : Vector Byte 6) (cc : Byte) (p : List Byte)

theorem frame_address : bufferAddress (frameBytes wire cc p) = wire := by
  rw [frameBytes_eq]
  ext i hi
  simp only [bufferAddress, Vector.getElem_ofFn, byteAt]
  interval_cases i <;> rfl

theorem frame_cc : byteAt (frameBytes wire cc p) 7 = cc := by rw [frameBytes_eq]; rfl

theorem frame_len : byteAt (frameBytes wire cc p) 8 = BitVec.ofNat 8 p.length := by
  rw [frameBytes_eq]; rfl

theorem frame_payload (h : p.length ≤ 255) : bufferPayload (frameBytes wire cc p) = p := by
  rw [bufferPayload, frame_len, length_byte p h, frameBytes_eq, slice_eq]
  simp

theorem frame_check (h : p.length ≤ 255) : bufferCheck (frameBytes wire cc p) =
    checksum wire cc (BitVec.ofNat 8 p.length) p := by
  rw [bufferCheck, frame_len, length_byte p h, frameBytes_eq, show 9 + p.length = p.length + 9 by omega]
  simp [byteAt, List.getD_eq_getElem?_getD]

theorem frame_calc (h : p.length ≤ 255) : bufferCalc (frameBytes wire cc p) =
    checksum wire cc (BitVec.ofNat 8 p.length) p := by
  rw [bufferCalc, frame_address, frame_cc, frame_len, frame_payload wire cc p h]

/-- A built frame of at least `MINLEN` bytes is accepted (43_frame_builder.md R130). -/
theorem parse_frame (h : p.length ≤ 255) (hmin : minLen g.VARIANT ≤ 11 + p.length) :
    parseBuffer g (frameBytes wire cc p) = .ok
      { Results.completed (ccKnownOf g.VARIANT cc) with
        R_ADDR := some (restoreAddress wire)
        R_CC := some cc
        R_PLEN := some (BitVec.ofNat 8 p.length)
        R_PAY := Memory.write .rpay [] 0 p
        R_CSRX := some (checksum wire cc (BitVec.ofNat 8 p.length) p)
        R_CSCALC := some (checksum wire cc (BitVec.ofNat 8 p.length) p)
        R_NF := some (BitVec.ofNat 8 (extract g p).length)
        R_F := extract g p } := by
  have hf := frameBytes_isFrame wire cc p h
  rw [parseBuffer_accepted (by rw [frameBytes_length]; exact hmin) ⟨hf.startMark, hf.endMark⟩
    hf.length.symm (by rw [frame_calc wire cc p h, frame_check wire cc p h])]
  rw [acceptedResults, frame_address, frame_cc, frame_len, frame_payload wire cc p h,
    frame_check wire cc p h, frame_calc wire cc p h]

/-- A buffer whose markers, length and checksum are right is the frame of its own parts. -/
theorem buffer_eq_frame (h2 : byteAt b 0 = startMarker ∧ byteAt b (b.length - 1) = endMarker)
    (h3 : expectedTotal (byteAt b 8) = b.length) (h4 : bufferCalc b = bufferCheck b) :
    (bufferPayload b).length = (byteAt b 8).toNat ∧
      b = frameBytes (bufferAddress b) (byteAt b 7) (bufferPayload b) := by
  have hlen : (bufferPayload b).length = (byteAt b 8).toNat := by
    rw [bufferPayload, slice_length]
    simp only [expectedTotal] at h3
    omega
  refine ⟨hlen, ?_⟩
  have hL : BitVec.ofNat 8 (bufferPayload b).length = byteAt b 8 := by
    rw [hlen]; simp
  simp only [expectedTotal] at h3
  apply List.ext_getElem
  · rw [frameBytes_length, hlen]; omega
  · intro i hi hi'
    rw [← byteAt_eq_getElem hi, ← byteAt_eq_getElem hi', frameBytes_eq, hL]
    have hcalc : checksum (bufferAddress b) (byteAt b 7) (byteAt b 8) (bufferPayload b) =
        byteAt b (9 + (byteAt b 8).toNat) := h4
    rw [hcalc]
    have haddr : ∀ j (hj : j < 6), (bufferAddress b)[j] = byteAt b (1 + j) := fun j hj => by
      simp [bufferAddress]
    by_cases h9 : i < 9
    · interval_cases i <;> simp [byteAt, haddr, ← h2.1]
    · obtain ⟨j, rfl⟩ : ∃ j, i = j + 9 := ⟨i - 9, by omega⟩
      simp only [byteAt, List.getD_cons_succ]
      by_cases hj : j < (bufferPayload b).length
      · rw [List.getD_append _ _ _ _ hj]
        simp only [bufferPayload, slice_eq, List.getD_eq_getElem?_getD]
        rw [List.getElem?_take_of_lt (by omega), List.getElem?_drop, Nat.add_comm]
      · rw [List.getD_append_right _ _ _ _ (by omega), hlen]
        obtain rfl | rfl : j = (byteAt b 8).toNat ∨ j = (byteAt b 8).toNat + 1 := by omega
        · simp [byteAt, Nat.add_comm]
        · have := h2.2
          rw [← h3, show 9 + (byteAt b 8).toNat + 2 - 1 = (byteAt b 8).toNat + 1 + 9 by omega] at this
          simpa [byteAt] using this

/-- Every accepted buffer is a built frame, of at least `MINLEN` and at most 266 bytes. -/
theorem accepted_is_frame {r : Results} (h : parseBuffer g b = .ok r) :
    ∃ wire cc p, p.length ≤ 255 ∧ minLen g.VARIANT ≤ 11 + p.length ∧ b = frameBytes wire cc p := by
  obtain ⟨h1, h2, h3, h4, -⟩ := parseBuffer_ok h
  obtain ⟨hlen, heq⟩ := buffer_eq_frame h2 h3 h4
  refine ⟨_, _, _, ?_, ?_, heq⟩
  · have := (byteAt b 8).isLt
    omega
  · have : b.length = 11 + (bufferPayload b).length := by
      rw [hlen, ← h3, expectedTotal]; omega
    omega

end Components

end Sys2Proof.Machine
end

