-- ==== Sys2Proof/Laws/PerInstr.lean ====
section
/-! SUPPORT. The law of the command words, instruction by instruction. -/

/-- The command word of an instruction has `rsv` = 0 and the instruction's number in `op`
(spec/30_encoding.md R60, R62), and of the rows of spec/opcode_table.json it matches exactly the
instruction's own. -/
def Sys2Proof.Laws.CommandWord.Statement (i : Sys2Proof.Instr) : Prop :=
  i.wf = true ∧ Sys2Proof.rsvField (Sys2Proof.encode i) = 0 ∧
    Sys2Proof.opField (Sys2Proof.encode i) = Sys2Proof.opOf i ∧
    (Sys2Proof.opcodeTable.filter fun row => row.hits (Sys2Proof.encode i)).map
      Sys2Proof.OpcodeRow.instr = [i]

namespace Sys2Proof.Laws

theorem CommandWord.aenc : CommandWord.Statement .aenc := by unfold CommandWord.Statement; decide
theorem CommandWord.adec : CommandWord.Statement .adec := by unfold CommandWord.Statement; decide
theorem CommandWord.rlook : CommandWord.Statement .rlook := by unfold CommandWord.Statement; decide
theorem CommandWord.fext : CommandWord.Statement .fext := by unfold CommandWord.Statement; decide
theorem CommandWord.csum : CommandWord.Statement .csum := by unfold CommandWord.Statement; decide
theorem CommandWord.bread : CommandWord.Statement .bread := by unfold CommandWord.Statement; decide
theorem CommandWord.bwrite : CommandWord.Statement .bwrite := by unfold CommandWord.Statement; decide
theorem CommandWord.bmread : CommandWord.Statement .bmread := by unfold CommandWord.Statement; decide
theorem CommandWord.bbcast : CommandWord.Statement .bbcast := by unfold CommandWord.Statement; decide
theorem CommandWord.bctrl : CommandWord.Statement .bctrl := by unfold CommandWord.Statement; decide
theorem CommandWord.parse : CommandWord.Statement .parse := by unfold CommandWord.Statement; decide

end Sys2Proof.Laws
end

