-- ==== Sys2Proof/Machine/ReferenceRegistry.lean ====
section
/-! DEFINITION. `REG_REF`, the reference registry of spec/41_field_registry.md R93, as the test
vectors use it. No operation reads it: a block's registry is `Configuration.REGISTRY`, whatever that
holds (R91). Members the spec stars are the spec's own choices and no fact about a meter. -/

namespace Sys2Proof.Machine

/-- `PP`, the custom rule of the power-protect state (R93). -/
def powerProtect : CustomDecode where
  cases := [(1, "enabled"), (0, "disabled")]
  otherwise := "unknown"

/-- The descriptor of forward active energy (R93). -/
def forwardActiveEnergy : Descriptor where
  name := "forward active energy"
  unit := "kWh"
  scale := { sn := 1, sdPred := 99 }
  byteWidth := 4
  byteOrder := .little
  customDecode := none

/-- The descriptor of the power-protect state (R93). -/
def powerProtectState : Descriptor where
  name := "power-protect state"
  unit := ""
  scale := { sn := 1, sdPred := 0 }
  byteWidth := 1
  byteOrder := .big
  customDecode := some powerProtect

/-- `REG_REF` (R93). -/
def regRef : Registry where
  legacy := [⟨[0x00, 0x00, 0x01, 0x00], forwardActiveEnergy⟩,
             ⟨[0x00, 0x11, 0x01, 0x00], powerProtectState⟩]
  revised := [⟨[0x00, 0x00, 0x01, 0x00, 0x00, 0xFF], forwardActiveEnergy⟩]

end Sys2Proof.Machine
end

