-- ==== Sys2Proof/Tests/Slice0.lean ====
section
/-! SUPPORT. Tests: the command words written out, the well-formedness checks refusing ill-formed
terms, single steps with the results of spec/95_test_vectors.md, and for every statement with
hypotheses a witness that meets them. -/

namespace Sys2Proof.Tests

open Sys2Proof.Machine Sys2Proof.Claims

/-! ### Command words (spec/30_encoding.md R60 to R63; vector V27) -/

theorem test_decode_aenc : decode 0b00000001#8 = .ok .aenc := by decide
theorem test_decode_adec : decode 0b00000010#8 = .ok .adec := by decide
theorem test_decode_rlook : decode 0b00000011#8 = .ok .rlook := by decide
theorem test_decode_fext : decode 0b00000100#8 = .ok .fext := by decide
theorem test_decode_csum : decode 0b00000101#8 = .ok .csum := by decide
theorem test_decode_bread : decode 0b00000110#8 = .ok .bread := by decide
theorem test_decode_bwrite : decode 0b00000111#8 = .ok .bwrite := by decide
theorem test_decode_bmread : decode 0b00001000#8 = .ok .bmread := by decide
theorem test_decode_bbcast : decode 0b00001001#8 = .ok .bbcast := by decide
theorem test_decode_bctrl : decode 0b00001010#8 = .ok .bctrl := by decide
theorem test_decode_parse : decode 0b00001011#8 = .ok .parse := by decide

theorem test_decode_reserved_numbers :
    [0x00#8, 0x0C#8, 0x0D#8, 0x0E#8, 0x0F#8].map decode =
      List.replicate 5 (.error .opReserved) := by decide

theorem test_decode_reserved_bits :
    [0x10#8, 0x1B#8, 0x81#8, 0xFF#8].map decode = List.replicate 4 (.error .rsvNotZero) := by decide

theorem test_table_rows_disjoint :
    ∀ w : Byte, (opcodeTable.filter fun row => row.hits w).length ≤ 1 := by decide

theorem test_table_agrees_with_decode :
    ∀ w : Byte, (opcodeTable.find? fun row => row.hits w).map OpcodeRow.instr =
      (decode w).toOption := by decide

theorem test_decodeTableWord :
    decodeTableWord 8 0x0B = some .parse ∧ decodeTableWord 8 0x10B = none := by decide

/-! ### Well-formedness (spec/41_field_registry.md R92) -/

/-- `REG_TEST` of spec/95_test_vectors.md: `REG_REF` and four rows invented there. -/
def regTest : Registry where
  legacy := regRef.legacy ++
    [⟨[0xAA, 0x00, 0x00, 0x01], ⟨"test voltage", "V", ⟨1, 9⟩, 2, .big, none⟩⟩,
     ⟨[0xAA, 0x00, 0x00, 0x02], ⟨"test ratio", "", ⟨1, 2⟩, 1, .big, none⟩⟩,
     ⟨[0xAA, 0x00, 0x00, 0x03], ⟨"test marker", "", ⟨1, 0⟩, 0, .big, none⟩⟩,
     ⟨[0xAA, 0x00, 0x00, 0x04], ⟨"test fine", "A", ⟨1, 9999⟩, 2, .little, none⟩⟩]
  revised := regRef.revised

theorem test_regRef_wf : regRef.wf = true := by decide

theorem test_regTest_wf : regTest.wf = true := by decide

theorem test_width_above_maxw_refused :
    Descriptor.wf ⟨"wide", "", ⟨1, 0⟩, 9, .big, none⟩ = false := by decide

theorem test_key_of_other_width_refused :
    RegistryRow.wf .revised ⟨[0x00, 0x00, 0x01, 0x00], forwardActiveEnergy⟩ = false := by decide

theorem test_duplicate_key_refused :
    Registry.wf ⟨[⟨[1, 2, 3, 4], forwardActiveEnergy⟩, ⟨[1, 2, 3, 4], powerProtectState⟩], []⟩ =
      false := by decide

theorem test_construct_refuses_ill_formed :
    construct (some 0) ⟨[⟨[1], forwardActiveEnergy⟩], []⟩ =
      .refused .registryIllFormed := by rfl

/-! ### Helpers -/

/-- A block over `REG_TEST` with the operands given. -/
def block (v : Variant) (o : Operands) : State :=
  { State.constructed ⟨v, regTest, defaultLegacyControlCC⟩ with opr := o }

/-- The result registers an operation leaves. -/
def results (i : Instr) (s : State) : Results :=
  match exec i s with
  | .next t => t.res
  | .fault _ => Results.noValues 0xFF 0xFF 0 0
  | .refused _ => Results.noValues 0xFF 0xFF 0 0

/-- Present a twelve-character address string. -/
def withAddress (chars : Vector Byte 12) (o : Operands) : Operands :=
  { o with A_LEN := 12, A_CH := chars }

/-- Present an identifier of the length given in a slot. -/
def withSlot (k : Fin 64) (len : Byte) (id : Vector Byte 6) (o : Operands) : Operands :=
  { o with ID_LEN := o.ID_LEN.set k len, ID_B := o.ID_B.set k id }

/-- Present data. -/
def withData (bytes : List Byte) (o : Operands) : Operands :=
  { o with DLEN := BitVec.ofNat 16 bytes.length, DBUF := Memory.write .dbuf [] 0 bytes }

/-- The cells of a buffer that holds a byte sequence. -/
def cells (bytes : List Byte) : Memory := (List.range bytes.length).zip bytes

/-- "000048604296". -/
def address1 : Vector Byte 12 :=
  #v[0x30, 0x30, 0x30, 0x30, 0x34, 0x38, 0x36, 0x30, 0x34, 0x32, 0x39, 0x36]

/-- "1234567890AB". -/
def address2 : Vector Byte 12 :=
  #v[0x31, 0x32, 0x33, 0x34, 0x35, 0x36, 0x37, 0x38, 0x39, 0x30, 0x41, 0x42]

/-- "abcdef012345". -/
def addressLower : Vector Byte 12 :=
  #v[0x61, 0x62, 0x63, 0x64, 0x65, 0x66, 0x30, 0x31, 0x32, 0x33, 0x34, 0x35]

/-- "00004860429@", the code before `A` in its last place. -/
def addressBad : Vector Byte 12 :=
  #v[0x30, 0x30, 0x30, 0x30, 0x34, 0x38, 0x36, 0x30, 0x34, 0x32, 0x39, 0x40]

/-- The identifier 00000100. -/
def energy : Vector Byte 6 := #v[0x00, 0x00, 0x01, 0x00, 0x00, 0x00]

/-- The identifier 00110100. -/
def protect : Vector Byte 6 := #v[0x00, 0x11, 0x01, 0x00, 0x00, 0x00]

/-- `RESP` of spec/95_test_vectors.md, section 6. -/
def resp : List Byte :=
  [0x68, 0x69, 0xBD, 0x9F, 0xB7, 0xFF, 0xFF, 0x81, 0x08, 0x00, 0x00, 0x01, 0x00, 0x40, 0xE2, 0x01,
   0x00, 0xD7, 0x16]

/-! ### One step of each operation, against spec/95_test_vectors.md -/

set_option maxRecDepth 8000

/-- V8, lower case. -/
theorem test_aenc_lower_case :
    results .aenc (block .legacy (withAddress addressLower Operands.reset)) =
      { Results.noValues 0x01 0 0 0 with
        R_WADDR := some #v[0xBA, 0xDC, 0xFE, 0x10, 0x32, 0x54] } := by decide

/-- V9, `@`. -/
theorem test_aenc_character_before_A :
    results .aenc (block .legacy (withAddress addressBad Operands.reset)) =
      Results.noValues 0x03 1 0 12 := by decide

/-- V10: 12 34 56 78 90 AB gives "546F87A9CBED". -/
theorem test_adec :
    (results .adec (block .legacy { Operands.reset with
      WADDR := #v[0x12, 0x34, 0x56, 0x78, 0x90, 0xAB] })).R_ADDR =
      some #v[0x35, 0x34, 0x36, 0x46, 0x38, 0x37, 0x41, 0x39, 0x43, 0x42, 0x45, 0x44] := by decide

/-- V12: a hit. -/
theorem test_rlook_hit :
    results .rlook (block .legacy (withSlot 0 4 protect Operands.reset)) =
      { Results.noValues 0x01 0 0 0 with
        R_HIT := some 1, R_DESC := some powerProtectState } := by decide

/-- V12: the bytes in another order miss. -/
theorem test_rlook_miss :
    results .rlook (block .legacy (withSlot 0 4 #v[0x00, 0x01, 0x00, 0x00, 0, 0] Operands.reset)) =
      { Results.noValues 0x01 0 0 0 with R_HIT := some 0 } := by decide

/-- V13: 0.0015, a tie, rounds up. -/
theorem test_fext_tie :
    (results .fext (block .legacy (withData [0xAA, 0x00, 0x00, 0x04, 0x0F, 0x00]
      Operands.reset))).R_F.map FieldRecord.val = [.numeric 2] := by decide

/-- V14: the value of an unknown field puts the cursor out of step, and the next field is lost. -/
theorem test_fext_out_of_step :
    (results .fext (block .legacy (withData [0xDE, 0xAD, 0xBE, 0xEF, 0x12, 0x34, 0xAA, 0x00, 0x00,
      0x01, 0x08, 0xFC] Operands.reset))).R_NF = some 0 := by decide

/-- V17: `LEN` differs from `DLEN` and is taken as given. -/
theorem test_csum_declared_length :
    (results .csum (block .legacy (withData [0x00, 0x11, 0x01, 0x00, 0x01] { Operands.reset with
      WADDR := #v[0x54, 0x6F, 0x87, 0xA9, 0xCB, 0xED], CC := 0x81, LEN := 0x01 }))).R_CSCALC =
      some 0xA2 := by decide

/-- V1, the source's golden vector. -/
theorem test_bread_golden :
    results .bread (block .legacy (withSlot 0 4 energy (withAddress address1 Operands.reset))) =
      { Results.noValues 0x01 0 0 0 with
        TXLEN := some 15
        TXBUF := cells [0x68, 0x69, 0xBD, 0x9F, 0xB7, 0xFF, 0xFF, 0x01, 0x04, 0x00, 0x00, 0x01, 0x00,
          0xF8, 0x16] } := by decide

/-- V18: the address is checked before the identifier. -/
theorem test_bread_checks_address_first :
    results .bread (block .legacy { (withSlot 0 6 energy (withAddress address1 Operands.reset)) with
      A_LEN := 11 }) = Results.noValues 0x03 1 0 11 := by decide

/-- V19. -/
theorem test_bwrite :
    (results .bwrite (block .legacy (withData [0x01] (withSlot 0 4 protect (withAddress address2
      { Operands.reset with CC := 0x02 }))))).TXBUF =
      cells [0x68, 0x54, 0x6F, 0x87, 0xA9, 0xCB, 0xED, 0x02, 0x05, 0x00, 0x11, 0x01, 0x00, 0x01, 0x25,
        0x16] := by decide

/-- V20. -/
theorem test_bmread :
    (results .bmread (block .legacy (withSlot 1 4 protect (withSlot 0 4 energy (withAddress address1
      { Operands.reset with NID := 2 }))))).TXBUF =
      cells [0x68, 0x69, 0xBD, 0x9F, 0xB7, 0xFF, 0xFF, 0x01, 0x08, 0x00, 0x00, 0x01, 0x00, 0x00, 0x11,
        0x01, 0x00, 0xE4, 0x16] := by decide

/-- V20: the second identifier is the ill-shaped one. -/
theorem test_bmread_second_identifier :
    results .bmread (block .legacy (withSlot 1 3 protect (withSlot 0 4 energy (withAddress address1
      { Operands.reset with NID := 2 })))) = Results.noValues 0x03 2 2 3 := by decide

/-- V21, with a malformed address in the address registers. -/
theorem test_bbcast :
    (results .bbcast (block .revised (withData [0x25, 0x11, 0x10, 0x16, 0x30, 0x00]
      (withAddress addressBad { Operands.reset with CC := 0x08 })))).TXBUF =
      cells [0x68, 0x00, 0x00, 0x00, 0x00, 0x00, 0x00, 0x08, 0x06, 0x25, 0x11, 0x10, 0x16, 0x30, 0x00,
        0x0C, 0x16] := by decide

/-- V22, Revised. -/
theorem test_bctrl_revised :
    (results .bctrl (block .revised (withSlot 0 6 #v[0x00, 0x11, 0x01, 0x00, 0x00, 0xFF]
      (withAddress address2 { Operands.reset with CMDB := 0x01, CC := 0x55 })))).TXBUF =
      cells [0x68, 0x54, 0x6F, 0x87, 0xA9, 0xCB, 0xED, 0x0F, 0x07, 0x00, 0x11, 0x01, 0x00, 0x00, 0xFF,
        0x01, 0xD5, 0x16] := by decide

/-- V22, Legacy with the decided `LEGACY_CONTROL_CC`. -/
theorem test_bctrl_legacy :
    (results .bctrl (block .legacy (withSlot 0 4 protect (withAddress address2
      { Operands.reset with CMDB := 0x01 })))).TXBUF =
      cells [0x68, 0x54, 0x6F, 0x87, 0xA9, 0xCB, 0xED, 0x02, 0x05, 0x00, 0x11, 0x01, 0x00, 0x01, 0x25,
        0x16] := by decide

/-- V23: `RESP` in a Legacy block. -/
theorem test_parse_response :
    results .parse (block .legacy (withData resp Operands.reset)) =
      { Results.noValues 0x05 0 0 0 with
        R_ADDR := some address1
        R_CC := some 0x81
        R_PLEN := some 8
        R_PAY := cells [0x00, 0x00, 0x01, 0x00, 0x40, 0xE2, 0x01, 0x00]
        R_CSRX := some 0xD7
        R_CSCALC := some 0xD7
        R_NF := some 1
        R_F := [⟨[0x00, 0x00, 0x01, 0x00], "forward active energy", "kWh", 123456,
          .numeric 1234560⟩] } := by decide

/-- V25: a wrong length and a wrong checksum give `LengthMismatch(20, 19)`. -/
theorem test_parse_length_before_checksum :
    results .parse (block .legacy (withData ((resp.set 8 0x09).set 17 0x00) Operands.reset)) =
      Results.noValues 0x03 5 20 19 := by decide

/-- V27: a wire control code is no command word; the step is an error, and no operand is read. -/
theorem test_step_reserved_word :
    step (block .legacy { Operands.reset with OPC := 0x81, DLEN := 0xFFFF }) =
      .next { (block .legacy { Operands.reset with OPC := 0x81, DLEN := 0xFFFF }) with
        res := Results.noValues 0x03 8 0x81 0 } := by rfl

/-- The step after reset with a command word written runs that operation. -/
theorem test_withFetchWord :
    step (State.withFetchWord (block .legacy Operands.reset) 8 0x02) =
      exec .adec (State.withFetchWord (block .legacy Operands.reset) 8 0x02) := by rfl

/-- 10_state.md R13: 0 is Legacy, 1 is Revised, for the strap and for the host's read. -/
theorem test_variant_bits : (variantOfBit 0, variantOfBit 1) = (.legacy, .revised) ∧
    hostRead .variant (block .legacy Operands.reset) = .ok (.bit 0) ∧
    hostRead .variant (block .revised Operands.reset) = .ok (.bit 1) := by decide

/-- 10_state.md R20: what the last operation did not write faults. -/
theorem test_hostRead_no_value :
    hostRead (.result .txlen) (block .legacy Operands.reset) = .error (.noValue .txlen) := by decide

/-- 20_memory.md R30: `DBUF` ends at offset 511. -/
theorem test_hostWrite_end_of_dbuf :
    hostWrite (.dbuf 512 0) (block .legacy Operands.reset) =
      .fault (.noSuchAddress .dbuf 512) := by rfl

/-! ### Witnesses: what each statement assumes is met somewhere, clause by clause

A theorem `witness_<Name>…` meets the hypotheses of `Obligations.<Name>`. -/

section Helpers

theorem presents_withData {bytes : List Byte} (h : bytes.length ≤ 512) (o : Operands) :
    Presents (withData bytes o) bytes := by
  refine ⟨?_, fun a ha => ?_⟩
  · simp only [withData, BitVec.toNat_ofNat]
    omega
  · simp only [withData]
    rw [Memory.read_write bytes (Memory.wf_nil _) (by simpa [Space.size, DCAP] using h),
      if_pos (by omega), Nat.sub_zero]

theorem addressString_of_valid {o : Operands} (h : validAddress o) :
    AddressString o (transform (canonicalBytes o)) := by
  refine ⟨h.1, fun i => ?_⟩
  obtain ⟨m, n, h1, h2, -, h4⟩ := validAddress_digits h i
  refine ⟨m, n, hexVal_eq_some.1 h1, hexVal_eq_some.1 h2, ?_⟩
  rw [transform_getElem _ _ (by omega)]
  have e5 : 5 - (5 - i.val) = i.val := by omega
  simp only [e5]
  rw [BitVec.toNat_not, h4]

theorem wireFrame_eq_frameBytes (wire : Vector Byte 6) (cc : Byte) (p : List Byte) :
    wireFrame wire cc p = frameBytes wire cc p := by
  have h : ∀ l, xorOf l = xorAll l := by
    intro l
    induction l with
    | nil => rfl
    | cons b l ih =>
      rw [xorAll_cons, ← ih]
      rfl
  rw [wireFrame, frameBytes, checkOf, h]
  simp [checksum, startMarker, endMarker]

end Helpers

/-- A Legacy block with a valid address and one well-shaped identifier. -/
def readBlock : State :=
  block .legacy (withSlot 0 4 energy (withAddress address1 Operands.reset))

/-- A block that presents `RESP`. -/
def respBlock (v : Variant) : State := block v (withData resp Operands.reset)

theorem readBlock_address : AddressString readBlock.opr #v[0x69, 0xBD, 0x9F, 0xB7, 0xFF, 0xFF] :=
  addressString_of_valid (by decide)

theorem block_inv {v : Variant} {o : Operands} (h : o.DLEN.toNat ≤ 512)
    (hm : Memory.wf .dbuf o.DBUF) : (block v o).Inv where
  registry := test_regTest_wf
  dlen := h
  dbufWf := hm
  results := by
    constructor <;> simp [block, State.constructed, Memory.wf] <;> decide

theorem witness_ResetLeavesNoResults : ¬ IsStatus .txlen ∧ ResultReg.addressFault .txlen = none ∧
    ¬ IsStatus (.txbuf 265) ∧ ResultReg.addressFault (.txbuf 265) = none := ⟨id, rfl, id, rfl⟩

theorem witness_ConstructionTakesTheStrap : regRef.wf = true ∧
    Registry.wf ⟨[⟨[1], forwardActiveEnergy⟩], []⟩ = false := by decide

theorem witness_DecodeAndEncodeAgree : decode 0x0B = .ok .parse := by decide

theorem witness_StepRunsTheSelectedOperation :
    ∃ (s : State) (i : Instr), decode s.opr.OPC = .ok i :=
  ⟨block .legacy { Operands.reset with OPC := 0x0B }, .parse, by decide⟩

theorem witness_ReservedWord_bits : ∃ s : State, s.opr.OPC.toNat = 16 :=
  ⟨block .legacy { Operands.reset with OPC := 0x10 }, by decide⟩

theorem witness_ReservedWord_zero : ∃ s : State, s.opr.OPC.toNat = 0 :=
  ⟨block .legacy Operands.reset, by decide⟩

theorem witness_ReservedWord_above : ∃ s : State, s.opr.OPC.toNat = 12 :=
  ⟨block .legacy { Operands.reset with OPC := 0x0C }, by decide⟩

theorem witness_AencEncodesTheAddress_valid : ∃ (s : State) (wire : Vector Byte 6),
    AddressString s.opr wire := ⟨readBlock, _, readBlock_address⟩

theorem witness_AencEncodesTheAddress_length : ∃ s : State, Malformed s.opr :=
  ⟨block .legacy { withAddress address1 Operands.reset with A_LEN := 11 }, .inl (by decide)⟩

theorem witness_AencEncodesTheAddress_character : ∃ s : State, s.opr.A_LEN = 12 ∧ Malformed s.opr :=
  ⟨block .legacy (withAddress addressBad Operands.reset), rfl, .inr ⟨11, fun n h => by
    have := hexVal_eq_some.2 h
    revert this
    have : hexVal addressBad[11] = none := by decide
    rw [show (block .legacy (withAddress addressBad Operands.reset)).opr.A_CH[(11 : Fin 12)] =
      addressBad[11] from rfl, this]
    simp⟩⟩

theorem witness_AddressRoundTrips_wire : ∃ (s t u : State) (address : Vector Byte 12),
    exec .adec s = .next t ∧ t.res.R_ADDR = some address ∧ u.opr.A_LEN = 12 ∧
      u.opr.A_CH = address :=
  ⟨readBlock, _, block .legacy (withAddress (restoreAddress readBlock.opr.WADDR) Operands.reset), _,
    rfl, rfl, rfl, rfl⟩

theorem witness_AddressRoundTrips_string : ∃ (s t u : State) (wire : Vector Byte 6),
    exec .aenc s = .next t ∧ t.res.R_WADDR = some wire ∧ u.opr.WADDR = wire :=
  ⟨readBlock, _, block .legacy { Operands.reset with
    WADDR := #v[0x69, 0xBD, 0x9F, 0xB7, 0xFF, 0xFF] }, _, exec_eq .aenc readBlock nofun,
    (by decide : (resultsOf (operationOf .aenc readBlock.cfg readBlock.opr)).R_WADDR =
      some #v[0x69, 0xBD, 0x9F, 0xB7, 0xFF, 0xFF]), rfl⟩

theorem witness_LookupIsExact : ∃ g : Configuration, g.REGISTRY.wf = true :=
  ⟨readBlock.cfg, test_regTest_wf⟩

theorem witness_Rlook_hit : ∃ (s : State) (d : Descriptor), WellShaped s 0 ∧
    lookup s.cfg (slotBytes s 0) = some d := 
    ⟨readBlock, forwardActiveEnergy, by unfold WellShaped; decide, by decide⟩

theorem witness_Rlook_miss : ∃ s : State, WellShaped s 0 ∧ lookup s.cfg (slotBytes s 0) = none :=
  ⟨block .legacy (withSlot 0 4 #v[0, 0, 2, 0, 0, 0] Operands.reset), by unfold WellShaped; decide,
    by decide⟩

theorem witness_Rlook_ill_shaped : ∃ s : State, ¬ WellShaped s 0 :=
  ⟨block .legacy (withSlot 0 6 energy Operands.reset), by unfold WellShaped; decide⟩

theorem witness_payload_of_255 : ∃ (s : State) (p : List Byte), Presents s.opr p ∧ p.length = 255 :=
  ⟨block .legacy (withData (List.replicate 255 0) Operands.reset), _,
    presents_withData (by simp) _, by simp⟩

theorem witness_payload_of_256 : ∃ (s : State) (p : List Byte), Presents s.opr p ∧ p.length = 256 ∧
    p.length ≤ DCAP :=
  ⟨block .legacy (withData (List.replicate 256 0) Operands.reset), _,
    presents_withData (by simp) _, by simp, by simp [DCAP]⟩

theorem witness_FextDecodesOneField : ∃ (s : State) (id value : List Byte) (d : Descriptor),
    Presents s.opr (id ++ value) ∧ id.length = idw s.cfg.VARIANT ∧ value.length = d.byteWidth ∧
      lookup s.cfg id = some d ∧ id.length + value.length ≤ 255 ∧ d.customDecode = none ∧
      (d.scale.sdPred + 1) ∣ 1000 :=
  ⟨block .legacy (withData ([0x00, 0x00, 0x01, 0x00] ++ [0x40, 0xE2, 0x01, 0x00]) Operands.reset),
    [0x00, 0x00, 0x01, 0x00], [0x40, 0xE2, 0x01, 0x00], forwardActiveEnergy,
    presents_withData (by decide) _, by decide, by decide, by decide, by decide, by decide,
    by decide⟩

/-- The clause of `DecodesTo` for a raw value with a label of its own, and the one for any other. -/
theorem witness_DecodesTo_labels : powerProtectState.customDecode = some powerProtect ∧
    powerProtect.cases = [(1, "enabled")] ++ (0, "disabled") :: [] ∧
    0 ∉ ([(1, "enabled")] : List (Nat × String)).map Prod.fst ∧
    2 ∉ powerProtect.cases.map Prod.fst := by decide

theorem witness_ExtractionIsBounded : ∃ (g : Configuration) (p : List Byte) (c c' : Cursor),
    p.length = 255 ∧ extractPass g p c = some c' :=
  ⟨readBlock.cfg, List.replicate 255 0, ⟨248, []⟩, ⟨252, []⟩, by simp, by decide⟩

theorem witness_MappingViewKeepsTheLast : ∃ (records : List FieldRecord) (id : List Byte)
    (f : FieldRecord), fieldOf records id = some f ∧ records.length = 2 :=
  ⟨[⟨[1], "a", "", 0, .numeric 0⟩, ⟨[1], "a", "", 1, .numeric 1⟩], [1],
    ⟨[1], "a", "", 1, .numeric 1⟩, by decide, rfl⟩

theorem witness_ChecksumLaws : (0 < resp.length ∧ 18 < resp.length ∧ 0 ≠ 18) := by decide

theorem witness_Bread : AddressString readBlock.opr #v[0x69, 0xBD, 0x9F, 0xB7, 0xFF, 0xFF] ∧
    WellShaped readBlock 0 := ⟨readBlock_address, by unfold WellShaped; decide⟩

theorem witness_Bread_ill_shaped : ∃ (s : State) (wire : Vector Byte 6), AddressString s.opr wire ∧
    ¬ WellShaped s 0 :=
  ⟨block .legacy (withSlot 0 6 energy (withAddress address1 Operands.reset)), _,
    addressString_of_valid (by decide), by unfold WellShaped; decide⟩

/-- A Legacy block that presents a value of `n` zero bytes beside address and identifier. -/
def writeBlock (n : Nat) : State :=
  block .legacy (withData (List.replicate n 0) (withSlot 0 4 protect (withAddress address2
    { Operands.reset with CC := 0x02 })))

theorem witness_Bwrite_251 : Presents (writeBlock 251).opr (List.replicate 251 0) ∧
    (∃ wire, AddressString (writeBlock 251).opr wire) ∧ WellShaped (writeBlock 251) 0 ∧
    idw (writeBlock 251).cfg.VARIANT + 251 = 255 :=
  ⟨presents_withData (by simp) _,
    ⟨_, addressString_of_valid (show validAddress (withAddress address2 Operands.reset) by decide)⟩,
    show (4 : Byte).toNat = 4 by rfl, rfl⟩

theorem witness_Bwrite_252 : Presents (writeBlock 252).opr (List.replicate 252 0) ∧
    (∃ wire, AddressString (writeBlock 252).opr wire) ∧ WellShaped (writeBlock 252) 0 ∧
    255 < idw (writeBlock 252).cfg.VARIANT + 252 :=
  ⟨presents_withData (by simp) _,
    ⟨_, addressString_of_valid (show validAddress (withAddress address2 Operands.reset) by decide)⟩,
    show (4 : Byte).toNat = 4 by rfl, by decide⟩

theorem witness_Bwrite_ill_shaped : ∃ (s : State) (wire : Vector Byte 6) (value : List Byte),
    Presents s.opr value ∧ AddressString s.opr wire ∧ ¬ WellShaped s 0 :=
  ⟨block .revised (withData [1] (withSlot 0 4 energy (withAddress address1 Operands.reset))), _, [1],
    presents_withData (by simp) _, addressString_of_valid (by decide), by unfold WellShaped; decide⟩

/-- A Legacy block with every identifier slot well-shaped. -/
def multiBlock (n : Byte) : State :=
  block .legacy (withAddress address1 { Operands.reset with
    NID := n, ID_LEN := Vector.replicate 64 4 })

theorem multiBlock_shaped (n : Byte) (k : Fin 64) : WellShaped (multiBlock n) k := by
  simp [WellShaped, multiBlock, block, withAddress, State.constructed, idw]

theorem multiBlock_address (n : Byte) : ∃ wire, AddressString (multiBlock n).opr wire :=
  ⟨_, addressString_of_valid (show validAddress (withAddress address1 Operands.reset) by decide)⟩

theorem witness_Bmread_65 : (∃ wire, AddressString (multiBlock 65).opr wire) ∧
    64 < (multiBlock 65).opr.NID.toNat := ⟨multiBlock_address _, by decide⟩

theorem witness_Bmread_64 : (∃ wire, AddressString (multiBlock 64).opr wire) ∧
    (multiBlock 64).opr.NID.toNat ≤ 64 ∧ (∀ k, WellShaped (multiBlock 64) k) ∧
    255 < (multiBlock 64).opr.NID.toNat * idw (multiBlock 64).cfg.VARIANT :=
  ⟨multiBlock_address _, by decide, multiBlock_shaped _, by decide⟩

theorem witness_Bmread_63 : (∃ wire, AddressString (multiBlock 63).opr wire) ∧
    (multiBlock 63).opr.NID.toNat ≤ 64 ∧ (∀ k, WellShaped (multiBlock 63) k) ∧
    (multiBlock 63).opr.NID.toNat * idw (multiBlock 63).cfg.VARIANT ≤ 255 :=
  ⟨multiBlock_address _, by decide, multiBlock_shaped _, by decide⟩

theorem witness_Bmread_ill_shaped : ∃ (s : State) (wire : Vector Byte 6) (k : Fin 64),
    AddressString s.opr wire ∧ s.opr.NID.toNat ≤ 64 ∧ k.val < s.opr.NID.toNat ∧ ¬ WellShaped s k ∧
      ∀ j : Fin 64, j < k → WellShaped s j :=
  ⟨block .legacy (withSlot 0 4 energy (withAddress address1 { Operands.reset with NID := 2 })), _, 1,
    addressString_of_valid (by decide), by decide, by decide, by unfold WellShaped; decide,
    by unfold WellShaped; decide⟩

theorem witness_Bctrl_revised : ∃ (s : State) (wire : Vector Byte 6), AddressString s.opr wire ∧
    WellShaped s 0 ∧ s.cfg.VARIANT = .revised :=
  ⟨block .revised (withSlot 0 6 protect (withAddress address2 Operands.reset)), _,
    addressString_of_valid (by decide), by unfold WellShaped; decide, rfl⟩

theorem witness_Bctrl_legacy : ∃ wire, AddressString readBlock.opr wire ∧ WellShaped readBlock 0 ∧
    readBlock.cfg.VARIANT = .legacy := 
    ⟨_, readBlock_address, by unfold WellShaped; decide, rfl⟩

/-- The result registers BREAD leaves in `readBlock`. -/
theorem readBlock_bread : exec .bread readBlock = .next { readBlock with
    res := emit #v[0x69, 0xBD, 0x9F, 0xB7, 0xFF, 0xFF] 0x01 [0x00, 0x00, 0x01, 0x00] } := by
  rw [exec_eq .bread readBlock nofun]
  have h : resultsOf (operationOf .bread readBlock.cfg readBlock.opr) =
      emit #v[0x69, 0xBD, 0x9F, 0xB7, 0xFF, 0xFF] 0x01 [0x00, 0x00, 0x01, 0x00] := by decide
  rw [h]

theorem witness_BuiltFrameLength : ∃ (i : Instr) (s t : State) (n : Half), IsBuilder i ∧
    exec i s = .next t ∧ t.res.TXLEN = some n := ⟨.bread, _, _, 15, trivial, readBlock_bread, rfl⟩

theorem witness_PseudoOperations_bread : ∃ s u : State, u.cfg = s.cfg ∧ AgreeAddress s.opr u.opr ∧
    AgreeSlot s.opr u.opr 0 ∧ u.opr.NID = 1 :=
  ⟨readBlock, { readBlock with opr := { readBlock.opr with NID := 1 } }, rfl,
    ⟨rfl, fun _ _ => rfl⟩, ⟨rfl, fun _ _ => rfl⟩, rfl⟩

theorem witness_PseudoOperations_bctrl : ∃ s u : State, u.cfg = s.cfg ∧ AgreeAddress s.opr u.opr ∧
    AgreeSlot s.opr u.opr 0 ∧ Presents u.opr [s.opr.CMDB] ∧ s.cfg.VARIANT = .legacy ∧
    u.opr.CC = s.cfg.LEGACY_CONTROL_CC :=
  ⟨readBlock, { readBlock with opr := withData [readBlock.opr.CMDB] { readBlock.opr with CC := 2 } },
    rfl, ⟨rfl, fun _ _ => rfl⟩, ⟨rfl, fun _ _ => rfl⟩, presents_withData (by simp) _, rfl, rfl⟩

theorem respBlock_presents (v : Variant) : Presents (respBlock v).opr resp :=
  presents_withData (by decide) _

theorem resp_eq_frame : resp = frameBytes #v[0x69, 0xBD, 0x9F, 0xB7, 0xFF, 0xFF] 0x81
    [0x00, 0x00, 0x01, 0x00, 0x40, 0xE2, 0x01, 0x00] := by decide

theorem witness_PseudoOperations_parse : ∃ (s u : State) (b : List Byte) (r : ParseRegs),
    u.cfg = s.cfg ∧ Presents s.opr b ∧ b.length ≤ DCAP ∧
    runStages s.cfg b [.lengthFloor, .delimiters, .structuralSlice, .integrity, .addressRestore]
      ParseRegs.start = .ok r ∧ Presents u.opr r.payload := by
  refine ⟨respBlock .legacy, block .legacy (withData [0x00, 0x00, 0x01, 0x00, 0x40, 0xE2, 0x01, 0x00]
    Operands.reset), resp, _, rfl, respBlock_presents _, by decide, rfl, ?_⟩
  exact presents_withData (by decide) _

/-! PARSE of a buffer of exactly `MINLEN` bytes, at each of its checks. -/

theorem witness_FirstError_short : ∃ (s : State) (b : List Byte), Presents s.opr b ∧
    b.length ≤ DCAP ∧ b.length + 1 = minLen s.cfg.VARIANT :=
  ⟨block .legacy (withData (resp.take 12) Operands.reset), resp.take 12,
    presents_withData (by decide) _, by decide, by decide⟩

theorem witness_FirstError_delimiters : ∃ (s : State) (b : List Byte), Presents s.opr b ∧
    b.length = minLen s.cfg.VARIANT ∧ b[0]? = some 0 ∧ b.getLast? = some 0 ∧ b[8]? = some 0 :=
  ⟨block .legacy (withData (List.replicate 13 0) Operands.reset), List.replicate 13 0,
    presents_withData (by decide) _, by decide, by decide, by decide, by decide⟩

theorem witness_FirstError_length : ∃ (s : State) (b : List Byte), Presents s.opr b ∧
    minLen s.cfg.VARIANT ≤ b.length ∧ b[0]? = some 0x68 ∧ b.getLast? = some 0x16 ∧
    b[8]? = some 9 ∧ 9 + (9 : Byte).toNat + 2 ≠ b.length :=
  ⟨block .legacy (withData (resp.set 8 9) Operands.reset), resp.set 8 9,
    presents_withData (by decide) _, by decide, by decide, by decide, by decide, by decide⟩

theorem witness_FirstError_checksum : ∃ (s : State) (b : List Byte), Presents s.opr b ∧
    minLen s.cfg.VARIANT ≤ b.length ∧ b[0]? = some 0x68 ∧ b.getLast? = some 0x16 ∧
    b[8]? = some 8 ∧ 9 + (8 : Byte).toNat + 2 = b.length ∧ b[9 + (8 : Byte).toNat]? = some 0xD7 ∧
    xorOf ((b.drop 1).take (8 + (8 : Byte).toNat)) ≠ 0xD7 :=
  ⟨block .legacy (withData (resp.set 13 0x41) Operands.reset), resp.set 13 0x41,
    presents_withData (by decide) _, by decide, by decide, by decide, by decide, by decide,
    by decide, by decide⟩

theorem witness_ParseReturnsTheFrame_floor : ∃ (s : State) (wire : Vector Byte 6) (cc : Byte)
    (p : List Byte), p.length ≤ 255 ∧ minLen s.cfg.VARIANT = 11 + p.length ∧
    Presents s.opr (wireFrame wire cc p) :=
  ⟨block .legacy (withData (wireFrame (Vector.replicate 6 0) 8 [0xAA, 0x55]) Operands.reset),
    Vector.replicate 6 0, 8, [0xAA, 0x55], by decide, by decide, presents_withData (by decide) _⟩

theorem witness_ParseReturnsTheFrame_longest : ∃ (s : State) (wire : Vector Byte 6) (cc : Byte)
    (p : List Byte), p.length = 255 ∧ minLen s.cfg.VARIANT ≤ 11 + p.length ∧
    Presents s.opr (wireFrame wire cc p) :=
  ⟨block .legacy (withData (wireFrame (Vector.replicate 6 0) 8 (List.replicate 255 0))
    Operands.reset), Vector.replicate 6 0, 8, List.replicate 255 0, by simp,
    by simp [block, State.constructed, minLen],
    presents_withData (by rw [wireFrame_eq_frameBytes, frameBytes_length]; simp) _⟩

theorem witness_StagesFailFast_fails : ∃ (s : State) (b : List Byte)
    (before after : List Stage) (st : Stage) (r : ParseRegs) (e : Raised), Presents s.opr b ∧
    b.length ≤ DCAP ∧ Stage.inOrder = before ++ st :: after ∧
    runStages s.cfg b before ParseRegs.start = .ok r ∧
      runStage s.cfg b ⟨st, r.address, r.cc, r.len, r.payload, r.csrx, r.csCalc, r.canon, r.fields,
        r.results⟩ = .error e :=
  ⟨block .legacy (withData (List.replicate 13 0) Operands.reset), List.replicate 13 0,
    [.lengthFloor], [.structuralSlice, .integrity, .addressRestore, .payloadDecode, .result],
    .delimiters, _, ⟨.delimiterMismatch, 0, 0⟩, presents_withData (by decide) _, by decide, rfl, rfl,
    rfl⟩

theorem witness_StagesFailFast_passes : ∃ r : ParseRegs, r.stage.number = 5 :=
  ⟨⟨.addressRestore, Vector.replicate 6 0, 0, 0, [], 0, 0, Vector.replicate 12 0, [],
    Results.completed false⟩, rfl⟩

/-- The longest length that fits the info word: R146's `n` itself. -/
theorem test_lengthWord : lengthWord 65535 = 0xFFFF ∧ lengthWord 267 = 267 := by decide

theorem witness_OverlongBuffersFail_fits : ∃ b : List Byte, 266 < b.length ∧ b.length = 65535 :=
  ⟨List.replicate 65535 0, by rw [List.length_replicate]; omega, List.length_replicate⟩

theorem witness_OverlongBuffersFail : ∃ b b' : List Byte, b.length = 267 ∧ b'.length = 267 ∧
    (byteAt b 0 = 0x68 ∧ byteAt b (b.length - 1) = 0x16) ∧
    ¬ (byteAt b' 0 = 0x68 ∧ byteAt b' (b'.length - 1) = 0x16) :=
  ⟨0x68 :: List.replicate 265 0 ++ [0x16], List.replicate 267 0, by decide, by decide, by decide,
    by decide⟩

/-- `RESP` is accepted. -/
theorem respBlock_accepted (v : Variant) : ∃ t, exec .parse (respBlock v) = .next t ∧
    t.res.ERRC = 0 := by
  refine ⟨_, exec_eq .parse (respBlock v) fun _ => by cases v <;> decide, ?_⟩
  cases v <;> decide

/-- The hypotheses of `SingleBitCorruptionIsReported` at a byte `k` and bit `j`. -/
theorem corruption_at (k : Nat) (hk : k < resp.length) (j : Nat) (hj : j < 8) :
    ∃ (s t u : State) (b : List Byte) (hk : k < b.length), j < 8 ∧ Presents s.opr b ∧
      exec .parse s = .next t ∧ t.res.ERRC = 0 ∧ u.cfg = s.cfg ∧
      Presents u.opr (b.set k (b[k] ^^^ BitVec.twoPow 8 j)) := by
  obtain ⟨t, ht, he⟩ := respBlock_accepted .legacy
  exact ⟨respBlock .legacy, t, block .legacy (withData (resp.set k (resp[k] ^^^ BitVec.twoPow 8 j))
    Operands.reset), resp, hk, hj, respBlock_presents _, ht, he, rfl,
    presents_withData (by simp [resp]) _⟩

theorem witness_SingleBitCorruption_first : ∃ (s t u : State) (b : List Byte) (hk : 0 < b.length),
    7 < 8 ∧ Presents s.opr b ∧ exec .parse s = .next t ∧ t.res.ERRC = 0 ∧ u.cfg = s.cfg ∧
      Presents u.opr (b.set 0 (b[0] ^^^ BitVec.twoPow 8 7)) := corruption_at 0 (by decide) 7 (by decide)

theorem witness_SingleBitCorruption_length : ∃ (s t u : State) (b : List Byte) (hk : 8 < b.length),
    0 < 8 ∧ Presents s.opr b ∧ exec .parse s = .next t ∧ t.res.ERRC = 0 ∧ u.cfg = s.cfg ∧
      Presents u.opr (b.set 8 (b[8] ^^^ BitVec.twoPow 8 0)) := corruption_at 8 (by decide) 0 (by decide)

theorem witness_SingleBitCorruption_last : ∃ (s t u : State) (b : List Byte) (hk : 18 < b.length),
    0 < 8 ∧ Presents s.opr b ∧ exec .parse s = .next t ∧ t.res.ERRC = 0 ∧ u.cfg = s.cfg ∧
      Presents u.opr (b.set 18 (b[18] ^^^ BitVec.twoPow 8 0)) :=
  corruption_at 18 (by decide) 0 (by decide)

theorem witness_SingleBitCorruption_covered : ∃ (s t u : State) (b : List Byte) (hk : 9 < b.length),
    0 < 8 ∧ Presents s.opr b ∧ exec .parse s = .next t ∧ t.res.ERRC = 0 ∧ u.cfg = s.cfg ∧
      Presents u.opr (b.set 9 (b[9] ^^^ BitVec.twoPow 8 0)) := corruption_at 9 (by decide) 0 (by decide)

/-- `RESP` with the lowest bit of bytes 9 and 16 flipped. -/
def pairedBlock : State :=
  block .legacy (withData ((resp.set 9 0x01).set 16 0x01) Operands.reset)

theorem witness_PairedErrorsAreAccepted : ∃ (s t u : State) (b : List Byte) (j k : Nat)
    (hj : j < b.length) (hk : k < b.length) (bits : Byte), 9 ≤ j ∧ 9 ≤ k ∧ j ≠ k ∧
      j < b.length - 2 ∧ k < b.length - 2 ∧ Presents s.opr b ∧ exec .parse s = .next t ∧
      t.res.ERRC = 0 ∧ u.cfg = s.cfg ∧
      Presents u.opr ((b.set j (b[j] ^^^ bits)).set k (b[k] ^^^ bits)) := by
  obtain ⟨t, ht, he⟩ := respBlock_accepted .legacy
  refine ⟨respBlock .legacy, t, pairedBlock, resp, 9, 16, by decide, by decide, 1, by decide,
    by decide, by decide, by decide, by decide, respBlock_presents _, ht, he, rfl, ?_⟩
  exact presents_withData (bytes := (resp.set 9 0x01).set 16 0x01) (by decide) _

/-- The hypotheses of `BuiltFramesParse` for the frame BREAD builds in `readBlock`. -/
theorem witness_BuiltFramesParse_accepted : ∃ (i : Instr) (s t u : State) (n : Half) (f : List Byte),
    IsBuilder i ∧ exec i s = .next t ∧ t.res.TXLEN = some n ∧ f.length = n.toNat ∧
      Memory.Holds .txbuf t.res.TXBUF f ∧ u.cfg = s.cfg ∧ Presents u.opr f ∧
      minLen s.cfg.VARIANT ≤ n.toNat ∧ i ≠ .bbcast ∧ ¬ (i = .bmread ∧ s.opr.NID = 0) :=
  ⟨.bread, readBlock, _, block .legacy (withData (frameBytes #v[0x69, 0xBD, 0x9F, 0xB7, 0xFF, 0xFF]
    0x01 [0x00, 0x00, 0x01, 0x00]) Operands.reset), 15, _, trivial, readBlock_bread, rfl, rfl,
    emit_holds _ _ _ (by decide), rfl, presents_withData (by decide) _, by decide, by decide,
    by decide⟩

/-- A broadcast of one byte builds a frame of 12 bytes, below the floor; a broadcast of two bytes
reaches it. -/
theorem broadcast_built (p : List Byte) (h : p.length ≤ 255) :
    ∃ (s t u : State) (n : Half) (f : List Byte), exec .bbcast s = .next t ∧
      t.res.TXLEN = some n ∧ f.length = n.toNat ∧ Memory.Holds .txbuf t.res.TXBUF f ∧
      u.cfg = s.cfg ∧ Presents u.opr f ∧ s.cfg.VARIANT = .legacy ∧ n.toNat = 11 + p.length := by
  have hp := presents_withData (bytes := p) (by omega) Operands.reset
  have hd : (withData p Operands.reset).DLEN.toNat = p.length := hp.1.symm
  have ho : operationOf .bbcast (block .legacy (withData p Operands.reset)).cfg
      (withData p Operands.reset) = .ok (emit broadcastWire 0 p) := by
    simp only [operationOf, bbcast, hd, payloadBound_ok h, except_ok_bind, except_pure,
      presentedData_eq hp.1 hp.2]
    rfl
  refine ⟨block .legacy (withData p Operands.reset), _, block .legacy (withData
    (frameBytes broadcastWire 0 p) Operands.reset), BitVec.ofNat 16 (11 + p.length),
    frameBytes broadcastWire 0 p, exec_eq .bbcast _ fun _ => ?_, ?_, ?_, ?_, rfl,
    presents_withData (by rw [frameBytes_length]; omega) _, rfl, ?_⟩
  · exact hd.trans_le (h.trans (by decide))
  · simp only [block]
    rw [show (State.constructed ⟨.legacy, regTest, defaultLegacyControlCC⟩).cfg = (block .legacy (withData p Operands.reset)).cfg
      from rfl, ho]
    rfl
  · rw [frameBytes_length]
    simp only [BitVec.toNat_ofNat]
    omega
  · simp only [block]
    rw [show (State.constructed ⟨.legacy, regTest, defaultLegacyControlCC⟩).cfg = (block .legacy (withData p Operands.reset)).cfg
      from rfl, ho]
    exact emit_holds _ _ _ h
  · simp only [BitVec.toNat_ofNat]
    omega

theorem witness_BuiltFramesParse_short : ∃ (s t u : State) (n : Half) (f : List Byte),
    exec .bbcast s = .next t ∧ t.res.TXLEN = some n ∧ f.length = n.toNat ∧
      Memory.Holds .txbuf t.res.TXBUF f ∧ u.cfg = s.cfg ∧ Presents u.opr f ∧
      s.cfg.VARIANT = .legacy ∧ n.toNat = 12 := broadcast_built [0xAA] (by decide)

theorem witness_BuiltFramesParse_broadcast : ∃ (s t u : State) (n : Half) (f : List Byte),
    exec .bbcast s = .next t ∧ t.res.TXLEN = some n ∧ f.length = n.toNat ∧
      Memory.Holds .txbuf t.res.TXBUF f ∧ u.cfg = s.cfg ∧ Presents u.opr f ∧
      s.cfg.VARIANT = .legacy ∧ n.toNat = 13 := broadcast_built [0xAA, 0x55] (by decide)

/-- A Legacy block that builds `RESP`. -/
def answerBlock : State :=
  block .legacy (withData [0x40, 0xE2, 0x01, 0x00] (withSlot 0 4 energy (withAddress address1
    { Operands.reset with CC := 0x81 })))

theorem witness_ResponseRoundTrip : ∃ (s t u : State) (n : Half) (f value : List Byte)
    (d : Descriptor), s.opr.CC = 0x81 ∧ Presents s.opr value ∧ exec .bwrite s = .next t ∧
      t.res.TXLEN = some n ∧ f.length = n.toNat ∧ Memory.Holds .txbuf t.res.TXBUF f ∧
      u.cfg = s.cfg ∧ Presents u.opr f ∧ lookup s.cfg (slotBytes s 0) = some d ∧
      value.length = d.byteWidth := by
  have h : resultsOf (operationOf .bwrite answerBlock.cfg answerBlock.opr) =
      emit #v[0x69, 0xBD, 0x9F, 0xB7, 0xFF, 0xFF] 0x81
        [0x00, 0x00, 0x01, 0x00, 0x40, 0xE2, 0x01, 0x00] := by decide
  refine ⟨answerBlock, _, respBlock .legacy, 19, resp, [0x40, 0xE2, 0x01, 0x00], forwardActiveEnergy,
    rfl, presents_withData (by decide) _, exec_eq .bwrite answerBlock (by decide), ?_, rfl, ?_, rfl,
    respBlock_presents _, by decide, rfl⟩
  · rw [h]
    rfl
  · rw [h, resp_eq_frame]
    exact emit_holds _ _ _ (by decide)

theorem witness_ControlCodeIsNotExamined : ∃ (s u : State) (wire : Vector Byte 6) (cc cc' : Byte)
    (p : List Byte), u.cfg = s.cfg ∧ p.length ≤ 255 ∧ cc ≠ cc' ∧
      Presents s.opr (wireFrame wire cc p) ∧ Presents u.opr (wireFrame wire cc' p) ∧
      minLen s.cfg.VARIANT = 11 + p.length :=
  ⟨block .legacy (withData (wireFrame (Vector.replicate 6 0) 8 [0xAA, 0x55]) Operands.reset),
    block .legacy (withData (wireFrame (Vector.replicate 6 0) 0x8F [0xAA, 0x55]) Operands.reset),
    Vector.replicate 6 0, 8, 0x8F, [0xAA, 0x55], rfl, by decide, by decide,
    presents_withData (by decide) _, presents_withData (by decide) _, by decide⟩

theorem witness_VariantIsNotChecked : ∃ (s u : State) (b : List Byte), Presents s.opr b ∧
    Presents u.opr b ∧ b.length ≤ DCAP ∧ minLen s.cfg.VARIANT ≤ b.length ∧
    minLen u.cfg.VARIANT ≤ b.length ∧ s.cfg.VARIANT ≠ u.cfg.VARIANT :=
  ⟨respBlock .legacy, respBlock .revised, resp, respBlock_presents _, respBlock_presents _, by decide,
    by decide, by decide, by decide⟩

theorem witness_ErrorEntry_success : ∃ (i : Instr) (s t : State), exec i s = .next t ∧
    t.res.ERRC = 0 := by
  obtain ⟨t, ht, he⟩ := respBlock_accepted .legacy
  exact ⟨.parse, _, t, ht, he⟩

theorem witness_ErrorEntry_failure : ∃ (i : Instr) (s t : State), exec i s = .next t ∧
    t.res.ERRC ≠ 0 :=
  ⟨.aenc, block .legacy Operands.reset, _, exec_eq .aenc _ nofun, by decide⟩

theorem witness_OnlyListedResultsHoldValues_reserved : ∃ (s t : State) (e : Reserved)
    (reg : ResultReg), decode s.opr.OPC = .error e ∧ step s = .next t ∧ ¬ IsStatus reg ∧
    ResultReg.addressFault reg = none :=
  ⟨block .legacy Operands.reset, _, .opReserved, .rNf, by decide, rfl, id, rfl⟩

theorem witness_OnlyListedResultsHoldValues : ∃ (i : Instr) (s t : State) (reg : ResultReg),
    exec i s = .next t ∧ ¬ IsStatus reg ∧ ResultReg.addressFault reg = none ∧ ¬ Lists i reg :=
  ⟨.bread, _, _, .rPay 254, readBlock_bread, id, rfl, id⟩

theorem witness_OnlyListedResultsHoldValues_failed : ∃ (i : Instr) (s t : State) (reg : ResultReg),
    exec i s = .next t ∧ ¬ IsStatus reg ∧ ResultReg.addressFault reg = none ∧ Lists i reg ∧
      t.res.ERRC ≠ 0 :=
  ⟨.aenc, block .legacy Operands.reset, _, .rWaddr 5, exec_eq .aenc _ nofun, id, rfl, trivial,
    by decide⟩

theorem witness_OperationsArePure : ∃ (i : Instr) (s u t : State), u.cfg = s.cfg ∧
    AgreeOn s.opr u.opr i ∧ exec i s = .next t ∧ u.opr ≠ s.opr :=
  ⟨.bread, readBlock, { readBlock with opr := { readBlock.opr with CC := 1 } }, _, rfl,
    ⟨⟨rfl, fun _ _ => rfl⟩, rfl, fun _ _ => rfl⟩, readBlock_bread, by decide⟩

theorem witness_EveryOperationCompletes : ∃ s s' : State, s.opr.DLEN.toNat = 512 ∧
    s'.opr.DLEN.toNat = 513 ∧ ¬ ReadsData .bread ∧ ReadsData .parse :=
  ⟨block .legacy { Operands.reset with DLEN := 512 }, block .legacy { Operands.reset with DLEN := 513 },
    by decide, by decide, id, trivial⟩

theorem witness_HostWriteReachesOneRegister : ∃ (w : HostWrite) (s t : State),
    Memory.wf .dbuf s.opr.DBUF ∧ hostWrite w s = .next t :=
  ⟨.dbuf 511 1, readBlock, _, Memory.wf_nil _, rfl⟩

theorem witness_HostWriteKeepsTheInvariant : ∃ (w : HostWrite) (s t : State), s.Inv ∧
    hostWrite w s = .next t :=
  ⟨.dlen 512, readBlock, _, block_inv (by decide) (Memory.wf_nil _), rfl⟩

theorem witness_StepKeepsTheInvariant : ∃ s t : State, s.Inv ∧ step s = .next t ∧
    decode s.opr.OPC = .ok .parse := by
  refine ⟨block .legacy { Operands.reset with OPC := 0x0B }, _,
    block_inv (by decide) (Memory.wf_nil _), exec_eq .parse _ fun _ => by decide, by decide⟩

theorem witness_ReachableStatesAreSafe : ∃ s : State, Reachable s ∧ s.opr.OPC = 0x0B := by
  exact ⟨_, ⟨some 0, regRef, 0x04, _, by rw [construct, if_pos test_regRef_wf],
    .act _ _ (.write (.opc 0x0B)) .refl rfl⟩, rfl⟩

theorem witness_ConfigurationIsFixedForLife : ∃ s t : State,
    construct (some 1) regRef 0x04 = .next s ∧ Runs s t ∧ t.opr.OPC = 0x0A :=
  ⟨_, _, by rw [construct, if_pos test_regRef_wf], .act _ _ (.write (.opc 0x0A)) .refl rfl, rfl⟩

end Sys2Proof.Tests
end

/-! ### Construction (00_scope.md R6; 70_reset_and_hazards.md R190 to R193) -/

namespace Sys2Proof.Machine

/-- R13 from the side of bit 1, where `variantOfBit` tests for bit 0. -/
theorem variantOfBit_eq_ite (b : BitVec 1) :
    variantOfBit b = if b = 1 then .revised else .legacy := by
  revert b; decide

/-- Results without a value are consistent as soon as the status and error registers agree: all other
clauses are about registers that hold a value. -/
theorem consistent_noValues {g : Configuration} {st errc : Byte} {i0 i1 : Half}
    (hreserved : reservedBits st = 0) (herr : errFlag st = true ↔ errc ≠ 0)
    (hrange : errc.toNat ≤ 8) (hknown : errFlag st = true → ccKnownFlag st = false)
    (hinfo : errFlag st = false → i0 = 0 ∧ i1 = 0) :
    Results.Consistent g (Results.noValues st errc i0 i1) where
  reserved := hreserved
  errIff := herr
  errcRange := hrange
  onError h := ⟨hknown h, rfl⟩
  onSuccess := hinfo
  txbufWf := Memory.wf_nil _
  rpayWf := Memory.wf_nil _
  frame _ h := by cases h
  noFrame _ := rfl
  payload _ h := by cases h
  noPayload _ := rfl
  fieldCount _ h := by cases h
  noFields _ := rfl
  records _ h := by cases h
  checksums _ h := by cases h
  hit := by simp

/-- The clauses on `DLEN` and `DBUF` rest on the model's operand registers after reset (log entries 4
and 5). -/
theorem constructed_inv {g : Configuration} (h : g.REGISTRY.wf = true) :
    (State.constructed g).Inv where
  registry := h
  dlen := Nat.zero_le _
  dbufWf := Memory.wf_nil _
  results := consistent_noValues (by decide) (by decide) (by decide) (by decide) fun _ => ⟨rfl, rfl⟩

section Construct
variable {r : Registry} (b : BitVec 1) (cc : Byte)

theorem construct_of_wf (h : r.wf = true) :
    construct (some b) r cc = .next (State.constructed ⟨variantOfBit b, r, cc⟩) := if_pos h

theorem construct_of_not_wf (h : r.wf = false) :
    construct (some b) r cc = .refused .registryIllFormed := if_neg (by simp [h])

@[simp] theorem construct_undriven (r : Registry) (cc : Byte) :
    construct none r cc = .refused .variantUndriven := rfl

end Construct

/-- Settles O2: a construction that succeeds answers `State.constructed`, which meets the invariant
for every well-formed registry. -/
theorem constructionTakesTheStrap : Obligations.ConstructionTakesTheStrap := by
  refine ⟨fun b r cc hr => ?driven, fun sel r => rfl, fun b r cc hr => construct_of_not_wf b cc hr,
    construct_undriven⟩
  case driven =>
    exact ⟨_, construct_of_wf b cc hr, variantOfBit_eq_ite b, rfl, rfl, rfl, constructed_inv hr⟩

end Sys2Proof.Machine

/-! ### Result registers without a value (10_state.md R20) -/

namespace Sys2Proof.Machine

open Sys2Proof.Claims

section Unlisted
variable {g : Configuration} {o : Operands} {r : Results} {reg : ResultReg}

/-- What AENC leaves when it succeeds. -/
theorem aenc_eq_ok (h : aenc g o = .ok r) : validAddress o ∧
    r = { Results.completed false with R_WADDR := some (transform (canonicalBytes o)) } := by
  obtain ⟨_, ha, h⟩ := except_bind_eq_ok h
  obtain ⟨hv, rfl⟩ := addressOperand_eq_ok ha
  exact ⟨hv, (Except.ok.inj h).symm⟩

/-- What RLOOK leaves when it succeeds: a miss, or a hit with its descriptor. -/
theorem rlook_eq_ok (h : rlook g o = .ok r) :
    r = { Results.completed false with R_HIT := some 0 } ∨
      ∃ d, r = { Results.completed false with R_HIT := some 1, R_DESC := some d } := by
  obtain ⟨id, -, h⟩ := except_bind_eq_ok h
  obtain rfl := Except.ok.inj h
  cases lookup g id with
  | none => exact .inl rfl
  | some d => exact .inr ⟨d, rfl⟩

/-- What FEXT leaves when it succeeds. -/
theorem fext_eq_ok (h : fext g o = .ok r) : o.DLEN.toNat ≤ 255 ∧
    r = withFields (extract g (presentedData o)) (Results.completed false) := by
  obtain ⟨_, hb, h⟩ := except_bind_eq_ok h
  exact ⟨payloadBound_eq_ok hb, (Except.ok.inj h).symm⟩

/-- What CSUM leaves when it succeeds. -/
theorem csum_eq_ok (h : csum g o = .ok r) : o.DLEN.toNat ≤ 255 ∧
    r = { Results.completed false with
      R_CSCALC := some (checksum o.WADDR o.CC o.LEN (presentedData o)) } := by
  obtain ⟨_, hb, h⟩ := except_bind_eq_ok h
  exact ⟨payloadBound_eq_ok hb, (Except.ok.inj h).symm⟩

/-- A builder that succeeds leaves an emission. -/
theorem builder_eq_ok {i : Instr} (hi : IsBuilder i) (h : operationOf i g o = .ok r) :
    ∃ wire cc p, r = emit wire cc p := by
  cases i with
  | bread =>
    obtain ⟨-, -, hr⟩ := bread_eq_ok h
    exact ⟨_, _, _, hr⟩
  | bwrite =>
    obtain ⟨-, -, -, hr⟩ := bwrite_eq_ok h
    exact ⟨_, _, _, hr⟩
  | bmread =>
    obtain ⟨-, -, -, -, hr⟩ := bmread_eq_ok h
    exact ⟨_, _, _, hr⟩
  | bbcast =>
    obtain ⟨-, hr⟩ := bbcast_eq_ok (g := g) h
    exact ⟨_, _, _, hr⟩
  | bctrl =>
    obtain ⟨-, -, hr⟩ := bctrl_eq_ok h
    exact ⟨_, _, _, hr⟩
  | aenc | adec | rlook | fext | csum | parse => exact hi.elim

/-- An emission writes no register but `TXLEN` and `TXBUF`. -/
theorem emit_value (wire : Vector Byte 6) (cc : Byte) (p : List Byte)
    (hlen : reg ≠ .txlen) (hbuf : ∀ off, reg ≠ .txbuf off) :
    ResultReg.value (emit wire cc p) reg = ResultReg.value (Results.completed false) reg := by
  cases reg with
  | txlen => exact absurd rfl hlen
  | txbuf off => exact absurd rfl (hbuf off)
  | _ => rfl

/-- A successful operation writes only the registers its row of R17 lists: every other register,
`ERRC` among them, is as in `Results.completed`. -/
theorem value_of_not_lists {i : Instr} (h : operationOf i g o = .ok r) (hl : ¬ Lists i reg) :
    ∃ k, ResultReg.value r reg = ResultReg.value (Results.completed k) reg := by
  cases i with
  | aenc =>
    obtain ⟨-, rfl⟩ := aenc_eq_ok (g := g) h
    refine ⟨false, ?_⟩
    cases reg with
    | rWaddr => exact absurd trivial hl
    | _ => rfl
  | adec =>
    obtain rfl := Except.ok.inj h
    refine ⟨false, ?_⟩
    cases reg with
    | rAddr => exact absurd trivial hl
    | _ => rfl
  | rlook =>
    refine ⟨false, ?_⟩
    obtain rfl | ⟨d, rfl⟩ := rlook_eq_ok h <;> cases reg with
    | rHit | rDesc => exact absurd trivial hl
    | _ => rfl
  | fext =>
    obtain ⟨-, rfl⟩ := fext_eq_ok h
    refine ⟨false, ?_⟩
    cases reg with
    | rNf | rF => exact absurd trivial hl
    | _ => rfl
  | csum =>
    obtain ⟨-, rfl⟩ := csum_eq_ok (g := g) h
    refine ⟨false, ?_⟩
    cases reg with
    | rCscalc => exact absurd trivial hl
    | _ => rfl
  | bread | bwrite | bmread | bbcast | bctrl =>
    obtain ⟨wire, cc, p, rfl⟩ := builder_eq_ok (by trivial) h
    refine ⟨false, emit_value wire cc p ?_ ?_⟩
    · rintro rfl
      exact hl trivial
    · rintro off rfl
      exact hl trivial
  | parse =>
    obtain ⟨-, -, -, -, rfl⟩ := parseBuffer_ok h
    refine ⟨ccKnownOf g.VARIANT (byteAt (presentedData o) 7), ?_⟩
    cases reg with
    | rAddr | rCc | rPlen | rPay | rCsrx | rCscalc | rNf | rF => exact absurd trivial hl
    | _ => rfl

/-- A successful operation leaves the error code 0. -/
theorem ERRC_of_ok {i : Instr} (h : operationOf i g o = .ok r) : r.ERRC = 0 := by
  obtain ⟨k, hk⟩ := value_of_not_lists (reg := .errc) h (by cases i <;> exact id)
  exact ReadValue.byte.inj (Option.some.inj hk)

/-- Only the status and error registers hold a value where none was written. -/
theorem value_noValues (st errc : Byte) (i0 i1 : Half) (hs : ¬ IsStatus reg) :
    ResultReg.value (Results.noValues st errc i0 i1) reg = none := by
  cases reg with
  | st | errc | einfo0 | einfo1 => exact absurd trivial hs
  | _ => rfl

/-- An operation leaves no value in a register that its row does not list, and none at all when it
fails. -/
theorem resultsOf_value {i : Instr} (hs : ¬ IsStatus reg)
    (h : ¬ Lists i reg ∨ (resultsOf (operationOf i g o)).ERRC ≠ 0) :
    ResultReg.value (resultsOf (operationOf i g o)) reg = none := by
  cases hop : operationOf i g o with
  | error e => exact value_noValues _ _ _ _ hs
  | ok r =>
    rw [hop, resultsOf_ok] at h
    obtain ⟨k, hk⟩ := value_of_not_lists hop (h.resolve_right fun he => he (ERRC_of_ok hop))
    rw [resultsOf_ok, hk]
    exact value_noValues _ _ _ _ hs

end Unlisted

/-- Settles O38: after reset and after an error only the status and error registers hold a value, to
which a successful operation adds those its row lists. -/
theorem onlyListedResultsHoldValues : Obligations.OnlyListedResultsHoldValues := by
  intro reg hs ha
  refine ⟨(read_eq_noValue ha).2 (value_noValues _ _ _ _ hs), fun s t e hd hstep => ?reserved,
    fun i s t hexec hl => ?operation⟩
  case reserved =>
    obtain ⟨i, hi, -⟩ | ⟨-, -, rfl⟩ := step_next hstep
    · cases hd.symm.trans hi
    · exact (read_eq_noValue ha).2 (value_noValues _ _ _ _ hs)
  case operation =>
    obtain ⟨-, rfl⟩ := exec_next hexec
    exact (read_eq_noValue ha).2 (resultsOf_value hs hl)

/-! ### Purity (10_state.md R11) -/

section Purity
variable {o o' : Operands} {v : Variant}

/-- A string of any other length than 12 is malformed whatever its characters, and one of length 12
has all of its characters meaningful. -/
theorem addressOperand_congr (h : AgreeAddress o o') : addressOperand o' = addressOperand o := by
  obtain ⟨hlen, hch⟩ := h
  by_cases h12 : o.A_LEN = 12
  · have hall : o'.A_CH = o.A_CH := Vector.ext fun i hi => hch ⟨i, hi⟩ (by rw [h12]; exact hi)
    simp only [addressOperand, validAddress, canonicalBytes, hlen, hall]
  · rw [addressOperand_error fun hv => h12 hv.1,
      addressOperand_error fun hv => h12 (hlen.symm.trans hv.1), hlen]

/-- An identifier of another length than `IDW` is ill-shaped whatever its bytes; of a well-shaped one
only meaningful bytes are taken. -/
theorem identifierOperand_congr {k : Fin 64} (h : AgreeSlot o o' k) :
    identifierOperand v o' k = identifierOperand v o k := by
  obtain ⟨hlen, hbytes⟩ := h
  by_cases hk : (o.ID_LEN[k]).toNat = idw v
  · rw [identifierOperand_ok hk, identifierOperand_ok (by rw [hlen, hk])]
    have : (o'.ID_B[k]).toList.take (idw v) = (o.ID_B[k]).toList.take (idw v) :=
      List.ext_getElem (by simp) fun j h1 h2 => by
        rw [slot_length] at h1
        have := idw_le v
        simpa using hbytes ⟨j, by omega⟩ (by rw [hk]; exact h1)
    rw [this]
  · rw [identifierOperand_error hk, identifierOperand_error (by rwa [hlen]), hlen]

theorem identifierOperands_congr {ks : List (Fin 64)} (h : ∀ k ∈ ks, AgreeSlot o o' k) :
    identifierOperands v o' ks = identifierOperands v o ks := by
  induction ks with
  | nil => rfl
  | cons k ks ih =>
    obtain ⟨hk, hks⟩ := List.forall_mem_cons.1 h
    simp only [identifierOperands, identifierOperand_congr hk, ih hks]

theorem presentedData_congr (h : AgreeData o o') : presentedData o' = presentedData o := by
  obtain ⟨hlen, hbytes⟩ := h
  refine presentedData_eq (by rw [presentedData_length, hlen]) fun a ha => ?_
  rw [presentedData_length] at ha
  rw [hbytes a ha, presentedData_getElem? o ha]

/-- An operation's outcome depends on the configuration and on the operands its rule names. -/
theorem operationOf_congr (g : Configuration) {i : Instr} (h : AgreeOn o o' i) :
    operationOf i g o' = operationOf i g o := by
  cases i with
  | aenc => simp only [operationOf, aenc, addressOperand_congr h]
  | adec => simp only [operationOf, adec, show o'.WADDR = o.WADDR from h]
  | rlook => simp only [operationOf, rlook, identifierOperand_congr h]
  | fext => simp only [operationOf, fext, presentedData_congr h, h.1]
  | csum =>
    obtain ⟨hw, hcc, hlen, hd⟩ := h
    simp only [operationOf, csum, hw, hcc, hlen, presentedData_congr hd, hd.1]
  | bread =>
    obtain ⟨ha, hk⟩ := h
    simp only [operationOf, bread, addressOperand_congr ha, identifierOperand_congr hk]
  | bwrite =>
    obtain ⟨ha, hk, hcc, hd⟩ := h
    simp only [operationOf, bwrite, addressOperand_congr ha, identifierOperand_congr hk, hcc,
      presentedData_congr hd, hd.1]
  | bmread =>
    obtain ⟨ha, hn, hk⟩ := h
    have hks := identifierOperands_congr (v := g.VARIANT) fun k hmem => hk k (firstSlots_mem.1 hmem)
    simp only [operationOf, bmread, addressOperand_congr ha, hn, hks]
  | bbcast =>
    obtain ⟨hcc, hd⟩ := h
    simp only [operationOf, bbcast, hcc, presentedData_congr hd, hd.1]
  | bctrl =>
    obtain ⟨ha, hk, hb⟩ := h
    simp only [operationOf, bctrl, addressOperand_congr ha, identifierOperand_congr hk, hb]
  | parse => simp only [operationOf, parse, presentedData_congr h]

/-- An operation that reads `DBUF` names `DLEN`. -/
theorem DLEN_of_agreeOn {i : Instr} (hi : readsData i = true) (h : AgreeOn o o' i) :
    o'.DLEN = o.DLEN := by
  cases i with
  | fext | parse => exact h.1
  | csum | bwrite =>
    obtain ⟨-, -, -, hlen, -⟩ := h
    exact hlen
  | bbcast =>
    obtain ⟨-, hlen, -⟩ := h
    exact hlen
  | aenc | adec | rlook | bread | bmread | bctrl => exact absurd hi Bool.false_ne_true

end Purity

/-- Settles O39: an operation is a function of the configuration and the operands its rule names. -/
theorem operationsArePure : Obligations.OperationsArePure := by
  intro i s u t hcfg hagree hexec
  obtain ⟨hdlen, rfl⟩ := exec_next hexec
  rw [exec_eq i u fun hi => by rw [DLEN_of_agreeOn hi hagree]; exact hdlen hi, hcfg,
    operationOf_congr s.cfg hagree]

/-! ### Writes of the host (10_state.md R15, R16; 20_memory.md R30) -/

/-- The writes that are answered: `DLEN` up to `DCAP`, and offsets that `DBUF` has. -/
def HostWrite.accepted : HostWrite → Prop
  | .dlen h => h.toNat ≤ DCAP
  | .dbuf off _ => off < DCAP
  | _ => True

/-- The operand registers after a write. -/
def HostWrite.apply : HostWrite → Operands → Operands
  | .opc b, o => { o with OPC := b }
  | .aLen b, o => { o with A_LEN := b }
  | .aCh i b, o => { o with A_CH := o.A_CH.set i b }
  | .waddr i b, o => { o with WADDR := o.WADDR.set i b }
  | .cc b, o => { o with CC := b }
  | .len b, o => { o with LEN := b }
  | .cmdb b, o => { o with CMDB := b }
  | .nid b, o => { o with NID := b }
  | .idLen k b, o => { o with ID_LEN := o.ID_LEN.set k b }
  | .idB k j b, o => { o with ID_B := o.ID_B.set k ((o.ID_B[k]).set j b) }
  | .dlen h, o => { o with DLEN := h }
  | .dbuf off b, o => { o with DBUF := Memory.writeByte .dbuf o.DBUF off b }

/-- The inversion of `hostWrite`: an answered write is an accepted one, applied to the operands. -/
theorem hostWrite_next_apply {w : HostWrite} {s t : State} (h : hostWrite w s = .next t) :
    w.accepted ∧ t = { s with opr := w.apply s.opr } := by
  cases w with
  | dlen n =>
    rw [hostWrite] at h
    split_ifs at h with hn
    exact ⟨hn, (Host.Outcome.next.inj h).symm⟩
  | dbuf off b =>
    rw [hostWrite] at h
    split_ifs at h with hoff
    exact ⟨hoff, (Host.Outcome.next.inj h).symm⟩
  | _ => exact ⟨trivial, (Host.Outcome.next.inj h).symm⟩

/-- An element reads as written at its own index and as before at every other. -/
theorem vector_set_getElem_fin {α : Type} {n : Nat} (xs : Vector α n) (j i : Fin n) (x : α) :
    (xs.set j x)[i] = if i = j then x else xs[i] := by
  simp only [Fin.getElem_fin, Vector.getElem_set, Fin.ext_iff, eq_comm]

theorem vector_set_set_getElem_fin {α : Type} {m n : Nat} (xs : Vector (Vector α n) m)
    (k' k : Fin m) (j' j : Fin n) (x : α) :
    ((xs.set k' ((xs[k']).set j' x))[k])[j] = if k = k' ∧ j = j' then x else (xs[k])[j] := by
  rw [vector_set_getElem_fin]
  by_cases hk : k = k'
  · subst hk
    simp only [if_true, vector_set_getElem_fin, true_and]
  · simp only [hk, if_false, false_and]

/-- Settles O41, register by register: the write that names it, and all the others. -/
theorem hostWriteReachesOneRegister : Obligations.HostWriteReachesOneRegister := by
  intro w s t hwf h
  obtain ⟨-, rfl⟩ := hostWrite_next_apply h
  refine ⟨rfl, rfl, ?OPC, ?A_LEN, ?CC, ?LEN, ?CMDB, ?NID, ?DLEN, ?A_CH, ?WADDR, ?ID_LEN, ?ID_B,
    ?DBUF⟩
  case OPC | A_LEN | CC | LEN | CMDB | NID | DLEN => cases w <;> rfl
  case A_CH =>
    cases w with
    | aCh j b => exact fun i => vector_set_getElem_fin _ j i b
    | _ => exact fun _ => rfl
  case WADDR =>
    cases w with
    | waddr j b => exact fun i => vector_set_getElem_fin _ j i b
    | _ => exact fun _ => rfl
  case ID_LEN =>
    cases w with
    | idLen j b => exact fun k => vector_set_getElem_fin _ j k b
    | _ => exact fun _ => rfl
  case ID_B =>
    cases w with
    | idB k' j' b => exact fun k j => vector_set_set_getElem_fin _ k' k j' j b
    | _ => exact fun _ _ => rfl
  case DBUF =>
    cases w with
    | dbuf off b => exact Memory.read_writeByte hwf off b
    | _ => exact fun _ => rfl

section Writes
variable {w : HostWrite} {o : Operands}

theorem HostWrite.apply_DLEN_le (hw : w.accepted) (h : o.DLEN.toNat ≤ DCAP) :
    (w.apply o).DLEN.toNat ≤ DCAP := by
  cases w with
  | dlen n => exact hw
  | _ => exact h

theorem HostWrite.apply_DBUF_wf (hw : w.accepted) (h : Memory.wf .dbuf o.DBUF) :
    Memory.wf .dbuf (w.apply o).DBUF := by
  cases w with
  | dbuf off b => exact Memory.wf_writeByte h hw b
  | _ => exact h

end Writes

/-- Settles O42: of what the invariant speaks of, a write reaches `DLEN` and `DBUF` only. -/
theorem hostWriteKeepsTheInvariant : Obligations.HostWriteKeepsTheInvariant := by
  intro w s t hinv h
  obtain ⟨hw, rfl⟩ := hostWrite_next_apply h
  exact ⟨hinv.registry, w.apply_DLEN_le hw hinv.dlen, w.apply_DBUF_wf hw hinv.dbufWf, hinv.results⟩

/-! ### The configuration (10_state.md R10, R13) -/

section ConfigurationKept
variable {s t : State}

theorem step_cfg (h : step s = .next t) : t.cfg = s.cfg := by
  obtain ⟨i, -, hi⟩ | ⟨-, -, rfl⟩ := step_next h
  · obtain ⟨-, rfl⟩ := exec_next hi
    rfl
  · exact illegalOp_cfg s

theorem act_cfg {a : Action} (h : act s a = .next t) : t.cfg = s.cfg := by
  cases a with
  | write w => rw [hostWrite_next h]
  | start => exact step_cfg h

theorem Runs.cfg_eq (h : Runs s t) : t.cfg = s.cfg := by
  induction h with
  | refl => rfl
  | act t u a _ ha ih => exact (act_cfg ha).trans ih

end ConfigurationKept

/-- Settles O45: no action changes the configuration, and `variantBit` undoes `variantOfBit`. -/
theorem configurationIsFixedForLife : Obligations.ConfigurationIsFixedForLife := by
  refine ⟨fun s => ?bit, fun b r cc s t hs hrun => ?life⟩
  case bit =>
    rw [hostRead_variant]
    cases s.cfg.VARIANT <;> rfl
  case life =>
    obtain ⟨b', hb, -, rfl⟩ := construct_next hs
    obtain rfl := Option.some.inj hb
    rw [hostRead_variant, hrun.cfg_eq, constructed_cfg, variantBit_variantOfBit]
    exact ⟨rfl, rfl, rfl⟩

end Sys2Proof.Machine

/-! ### The command word and the step (30_encoding.md R60 to R63) -/

namespace Sys2Proof.Machine

open Sys2Proof.Claims

/-- The operation numbers that are not reserved (R62, R63). -/
theorem instrOfOp_isSome (op : BitVec 4) :
    (instrOfOp op).isSome = true ↔ 1 ≤ op.toNat ∧ op.toNat ≤ 11 := by
  revert op; decide

section CommandWords
variable {w : Byte} {i : Instr} {s : State}

/-- The inversion of `decode`: both fields name the operation. -/
theorem decode_eq_ok (h : decode w = .ok i) :
    rsvField w = 0 ∧ instrOfOp (opField w) = some i := by
  unfold decode at h
  split_ifs at h with hrsv
  cases hop : instrOfOp (opField w) with
  | none => rw [hop] at h; cases h
  | some j => rw [hop] at h; exact ⟨hrsv, congrArg some (Except.ok.inj h)⟩

/-- A word that decodes is one of 0x01 to 0x0B. -/
theorem decode_ok_range (h : decode w = .ok i) : 1 ≤ w.toNat ∧ w.toNat ≤ 11 := by
  obtain ⟨hrsv, hop⟩ := decode_eq_ok h
  have hrange := (instrOfOp_isSome (opField w)).1 (by rw [hop]; rfl)
  have hword : 16 * (rsvField w).toNat + (opField w).toNat = w.toNat := nibbles_toNat w
  have hzero : (rsvField w).toNat = 0 := by rw [hrsv]; rfl
  omega

theorem step_of_decode_ok (h : decode (commandWord s) = .ok i) : step s = exec i s := by
  rw [step, h]

theorem step_of_decode_error {e : Reserved} (h : decode (commandWord s) = .error e) :
    step s = .next (illegalOp s) := by
  rw [step, h]

/-- A raised error leaves what `failed` spells out (60_exceptions.md R165). -/
theorem resultsOf_error_eq_failed (e : Raised) (s : State) :
    { s with res := resultsOf (.error e) } = failed s e.err.code e.info0 e.info1 := rfl

theorem illegalOp_eq_failed (s : State) :
    illegalOp s = failed s 8 (BitVec.ofNat 16 s.opr.OPC.toNat) 0 := by
  rw [illegalOp, zeroExtend_eq_ofNat]
  rfl

end CommandWords

/-- Settles O4, row by row of the opcode table. -/
theorem decodeReadsTheTableWords : Obligations.DecodeReadsTheTableWords :=
  ⟨rfl, rfl, rfl, rfl, rfl, rfl, rfl, rfl, rfl, rfl, rfl⟩

/-- Settles O6: `step` matches on the decoded command word and on nothing else. -/
theorem stepRunsTheSelectedOperation : Obligations.StepRunsTheSelectedOperation :=
  fun _ _ h => step_of_decode_ok h

/-- Settles O7: a word outside 0x01 to 0x0B does not decode. -/
theorem reservedWordRaisesIllegalOp : Obligations.ReservedWordRaisesIllegalOp := by
  intro s hw
  cases hd : decode (commandWord s) with
  | ok i =>
    have hrange : 1 ≤ s.opr.OPC.toNat ∧ s.opr.OPC.toNat ≤ 11 := decode_ok_range hd
    omega
  | error e => rw [step_of_decode_error hd, illegalOp_eq_failed]

end Sys2Proof.Machine

/-! ### The frame format (30_encoding.md R52, R56) -/

namespace Sys2Proof.Machine

open Sys2Proof.Claims

section FrameFormat
variable (wire : Vector Byte 6) (cc : Byte) (p : List Byte)

/-- The exclusive or of the statements, from the right, is the model's, from the left. -/
theorem xorOf_eq_xorAll (l : List Byte) : xorOf l = xorAll l := by
  induction l with
  | nil => rfl
  | cons b l ih => rw [xorAll_cons, ← ih, xorOf, List.foldr_cons, ← xorOf]

theorem checkOf_eq_checksum (len : Byte) : checkOf wire cc len p = checksum wire cc len p := by
  simp only [checkOf, xorOf_eq_xorAll, checksum, List.append_assoc, List.cons_append,
    List.nil_append]

/-- The frame format of the statements is the model's. -/
theorem wireFrame_eq : wireFrame wire cc p = frameBytes wire cc p := by
  simp only [wireFrame, frameBytes, checkOf_eq_checksum, startMarker, endMarker,
    List.append_assoc, List.cons_append, List.nil_append]

theorem wireFrame_length : (wireFrame wire cc p).length = 11 + p.length := by
  rw [wireFrame_eq, frameBytes_length]

/-- `TXLEN` does not wrap: a payload within the bound gives a length of at most 266 (R52). -/
theorem frameLength_toNat {p : List Byte} (h : p.length ≤ 255) :
    (BitVec.ofNat 16 (11 + p.length)).toNat = 11 + p.length := by
  rw [BitVec.toNat_ofNat]
  omega

end FrameFormat

/-- A builder that succeeds leaves an emission of a payload within the bound of R56: the identifiers
and one command byte are short by their widths, and every longer payload is checked. -/
theorem builder_eq_ok_bounded {i : Instr} {g : Configuration} {o : Operands} {r : Results}
    (hi : IsBuilder i) (h : operationOf i g o = .ok r) :
    ∃ wire cc p, p.length ≤ 255 ∧ r = emit wire cc p := by
  have hw := idw_le g.VARIANT
  cases i with
  | bread =>
    obtain ⟨-, -, hr⟩ := bread_eq_ok h
    exact ⟨_, _, _, by rw [slot_length]; omega, hr⟩
  | bwrite =>
    obtain ⟨-, -, hb, hr⟩ := bwrite_eq_ok h
    exact ⟨_, _, _, by rwa [List.length_append, slot_length, presentedData_length], hr⟩
  | bmread =>
    obtain ⟨-, hn, -, hb, hr⟩ := bmread_eq_ok h
    exact ⟨_, _, _, by rwa [multiread_length, firstSlots_length hn], hr⟩
  | bbcast =>
    obtain ⟨hb, hr⟩ := bbcast_eq_ok (g := g) h
    exact ⟨_, _, _, by rwa [presentedData_length], hr⟩
  | bctrl =>
    obtain ⟨-, -, hr⟩ := bctrl_eq_ok h
    exact ⟨_, _, _, by rw [List.length_append, slot_length, List.length_singleton]; omega, hr⟩
  | aenc | adec | rlook | fext | csum | parse => exact hi.elim

/-- A builder that leaves a `TXLEN` has succeeded. -/
theorem builder_txlen {i : Instr} {s t : State} {n : Half} (hi : IsBuilder i)
    (h : exec i s = .next t) (hn : t.res.TXLEN = some n) : ∃ wire cc p, p.length ≤ 255 ∧
      t.res = emit wire cc p ∧ n.toNat = 11 + p.length := by
  obtain ⟨-, rfl⟩ := exec_next h
  cases hop : operationOf i s.cfg s.opr with
  | error e => rw [hop] at hn; cases hn
  | ok r =>
    obtain ⟨wire, cc, p, hp, rfl⟩ := builder_eq_ok_bounded hi hop
    rw [hop] at hn
    obtain rfl := Option.some.inj hn
    exact ⟨wire, cc, p, hp, rfl, frameLength_toNat hp⟩

/-- Settles O25: `TXBUF` holds the frame emitted, and the byte at offset 8 is its length byte. -/
theorem builtFrameLength : Obligations.BuiltFrameLength := by
  intro i s t n hi hexec hn
  obtain ⟨wire, cc, p, hp, hres, hlen⟩ := builder_txlen hi hexec hn
  have hholds := emit_holds wire cc p hp
  rw [← hres] at hholds
  refine ⟨by omega, by omega, ⟨BitVec.ofNat 8 p.length, ?offset8, ?length⟩,
    ⟨wire, cc, p, by omega, ?format⟩, fun a => ?extent⟩
  case offset8 => rw [hholds 8, frameBytes_eq]; rfl
  case length => rw [length_byte p hp]; omega
  case format => rw [wireFrame_eq]; exact hholds
  case extent => simp [hholds a, frameBytes_length, hlen]

end Sys2Proof.Machine

/-! ### Operations that are special cases of others (30_encoding.md R66) -/

namespace Sys2Proof.Machine

open Sys2Proof.Claims

section SpecialCases
variable {g : Configuration} {o o' : Operands} {b : List Byte}

/-- What the host presents is the presented data. -/
theorem presentedData_of_presents (h : Presents o b) : presentedData o = b :=
  presentedData_eq h.1 h.2

/-- An operation that reads `DBUF` runs on what the host presents up to `DCAP`. -/
theorem exec_of_presents (i : Instr) {s : State} (h : Presents s.opr b) (hb : b.length ≤ DCAP) :
    exec i s = .next { s with res := resultsOf (operationOf i s.cfg s.opr) } :=
  exec_eq i s fun _ => h.1 ▸ hb

theorem exec_parse {s : State} (h : Presents s.opr b) (hb : b.length ≤ DCAP) :
    exec .parse s = .next { s with res := resultsOf (parseBuffer s.cfg b) } := by
  rw [exec_of_presents .parse h hb, operationOf, parse, presentedData_of_presents h]

/-- FEXT of a payload within the bound. -/
theorem exec_fext {s : State} (h : Presents s.opr b) (hb : b.length ≤ 255) :
    exec .fext s =
      .next { s with res := withFields (extract s.cfg b) (Results.completed false) } := by
  rw [exec_of_presents .fext h (hb.trans (by decide)), operationOf, fext,
    payloadBound_ok (h.1 ▸ hb), presentedData_of_presents h]
  rfl

/-- With one identifier, the checks of BMREAD on `NID` and on the payload length cannot fail. -/
theorem bmread_one (h : o.NID = 1) : bmread g o = bread g o := by
  have hn : o.NID.toNat = 1 := by rw [h]; rfl
  have hw := idw_le g.VARIANT
  have hslots : firstSlots 1 = [0] := by decide
  have hmax : decide (1 ≤ MAXID) = true := by decide
  simp only [bmread, bread, hn, hslots, hmax, require_true, identifierOperands,
    payloadBound_ok (show 1 * idw g.VARIANT ≤ 255 by omega), except_ok_bind, except_pure,
    bind_assoc, List.flatten_cons, List.flatten_nil, List.append_nil]

/-- BWRITE of one byte under `CC_CONTROL` is BCTRL of that command byte. -/
theorem bwrite_eq_bctrl (ha : AgreeAddress o o') (hk : AgreeSlot o o' 0)
    (hd : Presents o' [o.CMDB]) (hcc : o'.CC = controlCC g) : bwrite g o' = bctrl g o := by
  have hw := idw_le g.VARIANT
  have hlen : o'.DLEN.toNat = 1 := hd.1.symm
  simp only [bwrite, bctrl, addressOperand_congr ha, identifierOperand_congr hk, hcc, hlen,
    presentedData_of_presents hd, payloadBound_ok (show idw g.VARIANT + 1 ≤ 255 by omega),
    except_ok_bind]

/-- Stages that fail end the operation, whatever stages come after them. -/
theorem runStages_append_error {before after : List Stage} {r : ParseRegs} {e : Raised}
    (h : runStages g b before r = .error e) : runStages g b (before ++ after) r = .error e := by
  induction before generalizing r with
  | nil => cases h
  | cons st before ih =>
    rw [List.cons_append, runStages]
    obtain h1 | ⟨r', h1, h2⟩ := except_bind_eq_error h
    · rw [h1, except_error_bind]
    · rw [h1, except_ok_bind, ih h2]

/-- A stage takes no payload longer than a length byte can tell. -/
theorem runStage_payload_le {r r' : ParseRegs} (hr : r.payload.length ≤ 255)
    (h : runStage g b r = .ok r') : r'.payload.length ≤ 255 := by
  cases hstage : r.stage with simp only [runStage, hstage] at h
  | structuralSlice =>
    obtain ⟨-, -, h⟩ := except_bind_eq_ok h
    cases h
    have := (byteAt b 8).isLt
    simp only [slice_length]
    omega
  | lengthFloor | delimiters | integrity =>
    obtain ⟨-, -, h⟩ := except_bind_eq_ok h
    cases h
    exact hr
  | addressRestore | payloadDecode | result =>
    cases h
    exact hr

theorem runStages_payload_le {stages : List Stage} {r r' : ParseRegs}
    (hr : r.payload.length ≤ 255) (h : runStages g b stages r = .ok r') :
    r'.payload.length ≤ 255 := by
  induction stages generalizing r with
  | nil => cases h; exact hr
  | cons st stages ih =>
    obtain ⟨r1, h1, h2⟩ := except_bind_eq_ok h
    exact ih (runStage_payload_le (r := { r with stage := st }) hr h1) h2

end SpecialCases

/-- Stages 1 to 5 of PARSE (44_frame_parser.md R140). -/
def stagesBeforeDecode : List Stage :=
  [.lengthFloor, .delimiters, .structuralSlice, .integrity, .addressRestore]

section Decode
variable {g : Configuration} {b : List Byte}

theorem parseBuffer_of_error {e : Raised}
    (h : runStages g b stagesBeforeDecode ParseRegs.start = .error e) :
    parseBuffer g b = .error e := by
  have hall : runStages g b Stage.inOrder ParseRegs.start = .error e :=
    runStages_append_error (after := [.payloadDecode, .result]) h
  rw [parseBuffer, hall, except_error_bind]

/-- Stages 6 and 7 extract the fields of the payload taken and cannot fail. -/
theorem parseBuffer_of_ok {r : ParseRegs}
    (h : runStages g b stagesBeforeDecode ParseRegs.start = .ok r) :
    ∃ r', parseBuffer g b = .ok (parseResults g r') ∧ r'.fields = extract g r.payload := by
  have hall : runStages g b Stage.inOrder ParseRegs.start =
      runStages g b [.payloadDecode, .result] r := runStages_append h
  rw [parseBuffer, hall]
  exact ⟨_, rfl, rfl⟩

end Decode

/-- Settles O26: the two builders agree with their general forms before any result is written, and
PARSE extracts from the payload of its stages 1 to 5 as FEXT does. -/
theorem pseudoOperations : Obligations.PseudoOperations := by
  refine ⟨fun s u hcfg ha hk hn => ?bread, fun s u hcfg ha hk hd hcc => ?bctrl,
    fun s u b hcfg hb hlen => ?parse⟩
  case bread =>
    refine ⟨_, _, exec_eq .bread s (by rintro ⟨⟩), exec_eq .bmread u (by rintro ⟨⟩), ?_⟩
    have hsame : bread s.cfg u.opr = bread s.cfg s.opr :=
      operationOf_congr s.cfg (i := .bread) ⟨ha, hk⟩
    simp only [operationOf, hcfg, bmread_one hn, hsame]
  case bctrl =>
    refine ⟨_, _, exec_eq .bctrl s (by rintro ⟨⟩),
      exec_of_presents .bwrite hd (by simp [DCAP]), ?_⟩
    have hcontrol : u.opr.CC = controlCC s.cfg := hcc
    simp only [operationOf, hcfg, bwrite_eq_bctrl ha hk hd hcontrol]
  case parse =>
    rw [exec_parse hb hlen]
    split
    case h_1 e he => rw [parseBuffer_of_error he, resultsOf_error_eq_failed]
    case h_2 r hr =>
      intro hp
      have hpay : r.payload.length ≤ 255 := runStages_payload_le (Nat.zero_le _) hr
      obtain ⟨r', hparse, hfields⟩ := parseBuffer_of_ok hr
      refine ⟨_, _, rfl, exec_fext hp hpay, ?_⟩
      simp only [hparse, resultsOf_ok, parseResults, hfields, hcfg, withFields_R_NF, withFields_R_F,
        withFields_ERRC, completed_eq, noValues_ERRC, and_self]

/-! ### The control code is not examined (30_encoding.md R55; 44_frame_parser.md R153) -/

/-- PARSE of a presented frame. -/
theorem exec_parse_wireFrame {s : State} {wire : Vector Byte 6} {cc : Byte} {p : List Byte}
    (hp : p.length ≤ 255) (h : Presents s.opr (wireFrame wire cc p)) :
    exec .parse s =
      .next { s with res := resultsOf (parseBuffer s.cfg (frameBytes wire cc p)) } := by
  have hcap : (wireFrame wire cc p).length ≤ DCAP := by
    rw [wireFrame_length, DCAP]
    omega
  rw [exec_parse h hcap, wireFrame_eq]

/-- Settles O35: a frame below the floor is reported by its length alone, and what an accepted one
reports of its control code is in `ST`, `R_CC` and the checksum registers only. -/
theorem controlCodeIsNotExamined : Obligations.ControlCodeIsNotExamined := by
  intro s u wire cc cc' p hcfg hp hs hu
  refine ⟨_, _, exec_parse_wireFrame hp hs, exec_parse_wireFrame hp hu, ?_⟩
  rw [hcfg]
  by_cases hmin : minLen s.cfg.VARIANT ≤ 11 + p.length
  · rw [parse_frame wire cc p hp hmin, parse_frame wire cc' p hp hmin]
    simp [completed_eq]
  · have hshort : ∀ c, (frameBytes wire c p).length < minLen s.cfg.VARIANT := fun c => by
      rw [frameBytes_length]
      omega
    rw [parseBuffer_short (hshort cc), parseBuffer_short (hshort cc'), frameBytes_length,
      frameBytes_length]
    simp [hmin]

end Sys2Proof.Machine

/-! ### The address codec (40_address_codec.md R81 to R86) -/

namespace Sys2Proof.Machine

open Sys2Proof.Claims

/-- The twelve characters of an address string are two for each of its six segments. -/
theorem forall_chars {P : Fin 12 → Prop}
    (h : ∀ k : Fin 6, P ⟨2 * k.val, by omega⟩ ∧ P ⟨2 * k.val + 1, by omega⟩) (i : Fin 12) : P i := by
  obtain ⟨heven, hodd⟩ := h ⟨i.val / 2, by omega⟩
  obtain hi | hi := Nat.mod_two_eq_zero_or_one i.val
  · convert heven using 1
    exact Fin.ext (show i.val = 2 * (i.val / 2) by omega)
  · convert hodd using 1
    exact Fin.ext (show i.val = 2 * (i.val / 2) + 1 by omega)

section HexDigits
variable {ch : Byte} {n : Nat}

/-- The digits of the statements are the characters that have a `hexval` (00_scope.md R8). -/
theorem hexDigit_iff : HexDigit ch n ↔ hexVal ch = some n := hexVal_eq_some.symm

theorem upperHexDigit_hexChar (d : BitVec 4) : UpperHexDigit (hexChar d) d.toNat := hexChar_upper d

theorem upperHexDigit_highChar (b : Byte) : UpperHexDigit (highChar b) (b.toNat / 16) := by
  have hword := nibbles_toNat b
  have hlow := (b.extractLsb' 0 4).isLt
  have hhigh : (b.extractLsb' 4 4).toNat = b.toNat / 16 := by omega
  exact hhigh ▸ upperHexDigit_hexChar _

theorem upperHexDigit_lowChar (b : Byte) : UpperHexDigit (lowChar b) (b.toNat % 16) := by
  have hword := nibbles_toNat b
  have hlow := (b.extractLsb' 0 4).isLt
  have hmod : (b.extractLsb' 0 4).toNat = b.toNat % 16 := by omega
  exact hmod ▸ upperHexDigit_hexChar _

end HexDigits

section AddressStrings
variable {o : Operands}

/-- The malformed strings are those that fail AENC's check (R81). -/
theorem malformed_iff : Malformed o ↔ ¬ validAddress o := by
  simp only [Malformed, validAddress, hexDigit_iff, not_and_or, not_forall,
    Option.isSome_iff_exists, not_exists]

/-- A string made of digits passes AENC's check, and its wire form is the transform of its bytes. -/
theorem eq_transform_of_addressString {wire : Vector Byte 6} (h : AddressString o wire) :
    validAddress o ∧ wire = transform (canonicalBytes o) := by
  obtain ⟨hlen, hdigits⟩ := h
  have hvalid : validAddress o := by
    refine ⟨hlen, forall_chars fun k => ?_⟩
    obtain ⟨hi, lo, hhi, hlo, -⟩ := hdigits k
    exact ⟨Option.isSome_of_eq_some (hexDigit_iff.1 hhi),
      Option.isSome_of_eq_some (hexDigit_iff.1 hlo)⟩
  refine ⟨hvalid, Vector.ext fun j hj => BitVec.eq_of_toNat_eq ?_⟩
  have hrev : 5 - (5 - j) = j := by omega
  obtain ⟨hi, lo, hhi, hlo, hwire⟩ := hdigits ⟨5 - j, by omega⟩
  obtain ⟨m, n, hm, hn, -, hbyte⟩ := validAddress_digits hvalid ⟨5 - j, by omega⟩
  obtain rfl := Option.some.inj (hm.symm.trans (hexDigit_iff.1 hhi))
  obtain rfl := Option.some.inj (hn.symm.trans (hexDigit_iff.1 hlo))
  simp only [hrev] at hwire
  rw [hwire, transform_getElem _ _ hj, BitVec.toNat_not, hbyte]

/-- The upper-case spelling of a valid string is the canonical string of its bytes (R86). -/
theorem upperOf_canonicalChars (h : validAddress o) :
    UpperOf o.A_CH (canonicalChars (canonicalBytes o)) := by
  refine forall_chars fun k => ?_
  obtain ⟨m, n, hm, hn, -, hbyte⟩ := validAddress_digits h k
  have hlt := hexVal_lt hn
  refine ⟨⟨m, hexDigit_iff.2 hm, ?high⟩, ⟨n, hexDigit_iff.2 hn, ?low⟩⟩
  case high =>
    have hupper := upperHexDigit_highChar (canonicalBytes o)[k.val]
    rw [hbyte, show (16 * m + n) / 16 = m by omega, ← canonicalChars_even] at hupper
    exact hupper
  case low =>
    have hupper := upperHexDigit_lowChar (canonicalBytes o)[k.val]
    rw [hbyte, show (16 * m + n) % 16 = n by omega, ← canonicalChars_odd] at hupper
    exact hupper

end AddressStrings

/-- ADEC's string spells the complemented and reversed bytes in capitals (R85). -/
theorem restoredAddress_restoreAddress (wire : Vector Byte 6) :
    RestoredAddress wire (restoreAddress wire) := by
  intro i
  rw [restoreAddress, canonicalChars_even, canonicalChars_odd]
  refine ⟨_, _, upperHexDigit_highChar _, upperHexDigit_lowChar _, ?_⟩
  rw [Nat.div_add_mod, transform_getElem _ _ i.isLt, BitVec.toNat_not]

section Execution
variable {s t : State}

theorem exec_aenc_of_valid (h : validAddress s.opr) :
    exec .aenc s = .next { s with res := { Results.noValues 0x01 0 0 0 with
      R_WADDR := some (transform (canonicalBytes s.opr)) } } := by
  rw [exec_eq .aenc s nofun, operationOf, aenc, addressOperand_ok h]
  rfl

theorem exec_aenc_of_not_valid (h : ¬ validAddress s.opr) :
    exec .aenc s = .next (failed s 1 0 (BitVec.ofNat 16 s.opr.A_LEN.toNat)) := by
  rw [exec_eq .aenc s nofun, operationOf, aenc, addressOperand_error h, except_error_bind,
    resultsOf_error_eq_failed, zeroExtend_eq_ofNat]
  rfl

theorem exec_adec (s : State) :
    exec .adec s = .next { s with res := { Results.noValues 0x01 0 0 0 with
      R_ADDR := some (restoreAddress s.opr.WADDR) } } :=
  exec_eq .adec s nofun

/-- An AENC that leaves bytes in `R_WADDR` was given a valid string. -/
theorem exec_aenc_R_WADDR {wire : Vector Byte 6} (h : exec .aenc s = .next t)
    (hwire : t.res.R_WADDR = some wire) :
    validAddress s.opr ∧ wire = transform (canonicalBytes s.opr) := by
  by_cases hv : validAddress s.opr
  · rw [exec_aenc_of_valid hv] at h
    obtain rfl := Host.Outcome.next.inj h
    exact ⟨hv, (Option.some.inj hwire).symm⟩
  · rw [exec_aenc_of_not_valid hv] at h
    obtain rfl := Host.Outcome.next.inj h
    cases hwire

end Execution

/-- Settles O8: AENC's check separates the two clauses, and behind it the digits fix the wire form. -/
theorem aencEncodesTheAddress : Obligations.AencEncodesTheAddress := by
  refine fun s => ⟨fun wire hstring => ?valid, fun hmal => ?malformed⟩
  case valid =>
    obtain ⟨hvalid, rfl⟩ := eq_transform_of_addressString hstring
    exact exec_aenc_of_valid hvalid
  case malformed => exact exec_aenc_of_not_valid (malformed_iff.1 hmal)

/-- Settles O9: the string ADEC writes is `restoreAddress` of the operand, whatever it holds. -/
theorem adecRestoresTheAddress : Obligations.AdecRestoresTheAddress :=
  fun s => ⟨_, restoredAddress_restoreAddress s.opr.WADDR, exec_adec s⟩

/-- Settles O10: the involution gives the bijection. -/
theorem transformLaws : Obligations.TransformLaws := by
  have hinv : Function.Involutive transform := transform_transform
  exact ⟨hinv, hinv.bijective, by decide, xorAll_transform⟩

/-- Settles O11: each operation recovers the canonical bytes the other one spelt or transformed, and
`transform` undoes itself. -/
theorem addressRoundTrips : Obligations.AddressRoundTrips := by
  refine ⟨fun s t u address hexec haddr hlen hch => ?wire, fun s t u wire hexec hwire hu => ?string⟩
  case wire =>
    rw [exec_adec] at hexec
    obtain rfl := Host.Outcome.next.inj hexec
    obtain rfl := Option.some.inj haddr
    have hvalid : validAddress u.opr := ⟨hlen, fun i => by rw [hch]; exact canonicalChars_hex _ i⟩
    rw [exec_aenc_of_valid hvalid, canonicalBytes_of_chars hch, transform_transform]
  case string =>
    obtain ⟨hvalid, rfl⟩ := exec_aenc_R_WADDR hexec hwire
    refine ⟨_, upperOf_canonicalChars hvalid, ?_⟩
    rw [exec_adec, hu, restore_transform]

end Sys2Proof.Machine

/-! ### The field registry: look-up, decoding and extraction (41_field_registry.md R94 to R108) -/

namespace Sys2Proof.Machine

open Sys2Proof.Claims

section LookUp
variable {g : Configuration} {s : State} {id : List Byte} {d : Descriptor}

/-- In a well-formed registry a row is found by its key: no other row has that key (R92). -/
theorem lookup_of_mem (hwf : g.REGISTRY.wf = true)
    (hmem : { key := id, desc := d } ∈ g.REGISTRY.rows g.VARIANT) : lookup g id = some d := by
  have ht := registry_rows_wf hwf
  simp only [Registry.tableWf, Bool.and_eq_true, decide_eq_true_eq] at ht
  cases hl : lookup g id with
  | none => exact absurd rfl (lookup_none.1 hl _ hmem)
  | some d' =>
    have hrow := List.inj_on_of_nodup_map ht.2 (lookup_some hl) hmem rfl
    rw [(RegistryRow.mk.inj hrow).2]

/-- Settles O12: the keys of a well-formed table are distinct, so the first row found is
the only one. -/
theorem lookupIsExact : Obligations.LookupIsExact :=
  fun _ _ hwf => ⟨fun _ => ⟨lookup_some, lookup_of_mem hwf⟩, lookup_none⟩

/-- RLOOK of a well-shaped identifier reports the answer of the look-up, a miss included. -/
theorem exec_rlook_shaped (hs : WellShaped s 0) :
    exec .rlook s = .next { s with res := { Results.noValues 0x01 0 0 0 with
      R_HIT := some (BitVec.ofBool (lookup s.cfg (slotBytes s 0)).isSome)
      R_DESC := lookup s.cfg (slotBytes s 0) } } := by
  rw [exec_eq .rlook s nofun, operationOf, rlook, identifierOperand_ok hs, except_ok_bind,
    slotBytes]
  cases lookup s.cfg ((s.opr.ID_B[(0 : Fin 64)]).toList.take (idw s.cfg.VARIANT)) <;> rfl

theorem exec_rlook_ill_shaped (hs : ¬ WellShaped s 0) :
    exec .rlook s = .next (failed s 2 1 (BitVec.ofNat 16 (s.opr.ID_LEN[0]).toNat)) := by
  rw [exec_eq .rlook s nofun, operationOf, rlook, identifierOperand_error hs, except_error_bind,
    resultsOf_error_eq_failed, zeroExtend_eq_ofNat]
  rfl

end LookUp

/-- Settles O13: RLOOK checks the shape of slot 0 and reports what the look-up answers. -/
theorem rlookReportsTheDescriptor : Obligations.RlookReportsTheDescriptor := by
  refine fun s => ⟨fun hs => ⟨fun d hl => ?hit, fun hl => ?miss⟩, exec_rlook_ill_shaped⟩
  case hit | miss =>
    rw [exec_rlook_shaped hs, hl]
    rfl

section Decoding

theorem uintBE_eq_sum (v : List Byte) :
    uintBE v = ∑ i : Fin v.length, (v[i]).toNat * 256 ^ (v.length - 1 - i.val) := by
  induction v with
  | nil => rfl
  | cons b v ih =>
    rw [uintBE_cons, ih]
    simp only [List.length_cons, Fin.sum_univ_succ]
    congr 1
    refine Finset.sum_congr rfl fun i _ => ?_
    congr 2
    simp only [Fin.val_succ]
    omega

theorem uintLE_eq_sum (v : List Byte) :
    uintLE v = ∑ i : Fin v.length, (v[i]).toNat * 256 ^ i.val := by
  induction v with
  | nil => rfl
  | cons b v ih =>
    rw [uintLE, ih, Finset.mul_sum]
    simp only [List.length_cons, Fin.sum_univ_succ]
    congr 1
    · exact (Nat.mul_one _).symm
    · refine Finset.sum_congr rfl fun i _ => ?_
      show 256 * (v[i].toNat * 256 ^ i.val) = v[i].toNat * 256 ^ (i.val + 1)
      ring

/-- The primitive `uint` computes the sums of 00_scope.md R9. -/
theorem uint_eq_rawOf (v : List Byte) (order : ByteOrder) : uint v order = rawOf order v := by
  cases order
  · exact uintBE_eq_sum v
  · exact uintLE_eq_sum v

/-- `milliOf` is the number of thousandths nearest to the exact product, ties up (R99). -/
theorem milliOf_bounds (raw : Nat) (scale : Scale) :
    milliOf raw scale * (2 * (scale.sdPred + 1)) ≤
        2 * raw * scale.sn * 1000 + (scale.sdPred + 1) ∧
      2 * raw * scale.sn * 1000 + (scale.sdPred + 1) <
        (milliOf raw scale + 1) * (2 * (scale.sdPred + 1)) := by
  have hpos : 0 < 2 * (scale.sdPred + 1) := by omega
  exact ⟨Nat.div_mul_le_self _ _, Nat.lt_mul_of_div_lt (Nat.lt_succ_self _) hpos⟩

/-- The first case listed for a raw value gives its label (R98). -/
theorem label_of_listed {c : CustomDecode} {raw : Nat} {label : String}
    {pre post : List (Nat × String)} (hc : c.cases = pre ++ (raw, label) :: post)
    (hpre : raw ∉ pre.map Prod.fst) : CustomDecode.label c raw = label := by
  have hl : c.cases.lookup raw = some label := by
    refine List.lookup_eq_some_iff.2 ⟨pre, post, hc, fun x hx => ?_⟩
    rw [bne_iff_ne]
    rintro rfl
    exact hpre (List.mem_map_of_mem hx)
  rw [CustomDecode.label, hl, Option.getD_some]

/-- A raw value that no case lists has the rule's other label (R98). -/
theorem label_of_not_listed {c : CustomDecode} {raw : Nat} (h : raw ∉ c.cases.map Prod.fst) :
    CustomDecode.label c raw = c.otherwise := by
  have hl : c.cases.lookup raw = none := by
    refine List.lookup_eq_none_iff.2 fun x hx => ?_
    rw [bne_iff_ne]
    rintro rfl
    exact h (List.mem_map_of_mem hx)
  rw [CustomDecode.label, hl, Option.getD_none]

theorem decodeValue_linear {d : Descriptor} (h : d.customDecode = none) (raw : Nat) :
    decodeValue d raw = .numeric (milliOf raw d.scale) := by rw [decodeValue, h]

theorem decodeValue_custom {d : Descriptor} {c : CustomDecode} (h : d.customDecode = some c)
    (raw : Nat) : decodeValue d raw = .status (CustomDecode.label c raw) := by rw [decodeValue, h]

/-- The model's record is the record of the decoding rules (R96 to R100). -/
theorem decodesTo_fieldRecord (id : List Byte) (d : Descriptor) (value : List Byte) :
    DecodesTo id d value (fieldRecord id d value) where
  id := rfl
  name := rfl
  unit := rfl
  raw := uint_eq_rawOf value d.byteOrder
  linear h := ⟨_, decodeValue_linear h _, milliOf_bounds _ _⟩
  listed c pre label post h hc hpre := by
    rw [← label_of_listed hc hpre]
    exact decodeValue_custom h _
  unlisted c h hc := by
    rw [← label_of_not_listed hc]
    exact decodeValue_custom h _

/-- A scale of at most three decimals needs no rounding (R99). -/
theorem val_of_decodesTo {id value : List Byte} {d : Descriptor} {f : FieldRecord}
    (hf : DecodesTo id d value f) (hcustom : d.customDecode = none)
    (hdvd : (d.scale.sdPred + 1) ∣ 1000) :
    f.val = .numeric (f.raw * d.scale.sn * (1000 / (d.scale.sdPred + 1))) := by
  obtain ⟨milli, hval, hle, hlt⟩ := hf.linear hcustom
  obtain ⟨k, hk⟩ := hdvd
  have hexact : 2 * f.raw * d.scale.sn * 1000 =
      f.raw * d.scale.sn * k * (2 * (d.scale.sdPred + 1)) := by
    rw [hk]
    ring
  rw [hexact] at hle hlt
  have hlow : f.raw * d.scale.sn * k < milli + 1 :=
    Nat.lt_of_mul_lt_mul_right ((Nat.le_add_right _ _).trans_lt hlt)
  have hhigh : milli < f.raw * d.scale.sn * k + 1 := by
    refine Nat.lt_of_mul_lt_mul_right (a := 2 * (d.scale.sdPred + 1)) (hle.trans_lt ?_)
    rw [Nat.add_mul, Nat.one_mul]
    omega
  have hquot : 1000 / (d.scale.sdPred + 1) = k := by
    rw [hk, Nat.mul_div_cancel_left k (Nat.succ_pos _)]
  rw [hval, hquot, show milli = f.raw * d.scale.sn * k by omega]

end Decoding

section Extraction
variable {g : Configuration} {p : List Byte}

/-- With enough passes allowed, the loop appends the records of the walk from its cursor. -/
theorem extractLoop_walk {fuel : Nat} {c : Cursor} (h : (p.length - c.pos) / 4 + 1 ≤ fuel) :
    ∃ out, Walk g p c.pos out ∧ extractLoop g p fuel c = c.out ++ out := by
  induction fuel generalizing c with
  | zero => omega
  | succ fuel ih =>
    rw [extractLoop]
    cases hp : extractPass g p c with
    | none =>
      refine ⟨[], ?_, (List.append_nil _).symm⟩
      obtain hend | ⟨d, hle, hl, hw⟩ := extractPass_none hp
      · exact .ended hend
      · exact .partialValue hle hl hw
    | some c' =>
      have hpos := extractPass_pos hp
      have hidw := four_le_idw g.VARIANT
      obtain ⟨out, hwalk, hloop⟩ := ih (c := c') (by omega)
      simp only [hloop]
      obtain ⟨hle, ⟨hl, rfl⟩ | ⟨d, hl, hw, rfl⟩⟩ := extractPass_some hp
      · exact ⟨out, .unknown hle hl hwalk, rfl⟩
      · exact ⟨_, .known hl hw (decodesTo_fieldRecord _ _ _) hwalk, List.append_assoc _ _ _⟩

theorem extract_walk (g : Configuration) (p : List Byte) : Walk g p 0 (extract g p) := by
  obtain ⟨out, hwalk, hloop⟩ := extractLoop_walk (g := g) (p := p) (fuel := p.length + 1)
    (c := { pos := 0, out := [] }) (by simp only; omega)
  rwa [extract, hloop, List.nil_append]

/-- Past the last identifier the walk makes no record (R106). -/
theorem walk_eq_nil {pos : Nat} {out : List FieldRecord} (h : Walk g p pos out)
    (hend : p.length < pos + idw g.VARIANT) : out = [] := by
  cases h with
  | ended | partialValue => rfl
  | unknown hle | known _ hle => omega

/-- The walk over one known identifier and its value makes one record (R102). -/
theorem walk_single {id value : List Byte} {d : Descriptor} {out : List FieldRecord}
    (h : Walk g (id ++ value) 0 out) (hid : id.length = idw g.VARIANT)
    (hvalue : value.length = d.byteWidth) (hl : lookup g id = some d) :
    ∃ f, DecodesTo id d value f ∧ out = [f] := by
  have hlen : (id ++ value).length = idw g.VARIANT + d.byteWidth := by
    rw [List.length_append, hid, hvalue]
  have htake : ((id ++ value).drop 0).take (idw g.VARIANT) = id := by
    rw [List.drop_zero, ← hid, List.take_left]
  have hdrop : ((id ++ value).drop (0 + idw g.VARIANT)).take d.byteWidth = value := by
    rw [Nat.zero_add, ← hid, List.drop_left, ← hvalue, List.take_length]
  have hidw := four_le_idw g.VARIANT
  cases h with
  | ended hend => omega
  | unknown _ hnone =>
    rw [htake, hl] at hnone
    cases hnone
  | partialValue _ hsome hw =>
    rw [htake, hl] at hsome
    obtain rfl := Option.some.inj hsome
    omega
  | known hsome _ hf hrest =>
    rw [htake, hl] at hsome
    obtain rfl := Option.some.inj hsome
    rw [htake, hdrop] at hf
    exact ⟨_, hf, congrArg _ (walk_eq_nil hrest (by omega))⟩

/-- FEXT of a payload above the bound (30_encoding.md R56). -/
theorem exec_fext_too_long {s : State} (h : Presents s.opr p) (hcap : p.length ≤ DCAP)
    (hlong : 255 < p.length) :
    exec .fext s = .next (failed s 7 (BitVec.ofNat 16 p.length) 255) := by
  rw [exec_of_presents .fext h hcap, operationOf, fext, ← h.1, payloadBound_error hlong,
    except_error_bind, resultsOf_error_eq_failed]
  rfl

/-- `n` passes that go on take at least four bytes each and stay inside the payload (R108). -/
theorem iterate_extractPass_pos {n : Nat} {c c' : Cursor} (hc : c.pos ≤ p.length)
    (h : (fun c => Option.bind c (extractPass g p))^[n] (some c) = some c') :
    c.pos + 4 * n ≤ c'.pos ∧ c'.pos ≤ p.length := by
  induction n generalizing c' with
  | zero =>
    obtain rfl := Option.some.inj h
    exact ⟨le_rfl, hc⟩
  | succ n ih =>
    rw [Function.iterate_succ_apply'] at h
    obtain ⟨c₁, hn, hlast⟩ := Option.bind_eq_some_iff.1 h
    have hbefore := ih hn
    have hpos := extractPass_pos hlast
    have hidw := four_le_idw g.VARIANT
    omega

end Extraction

/-- Settles O14: the records are those of the walk, and only the payload bound is checked. -/
theorem fextWalksThePayload : Obligations.FextWalksThePayload := by
  refine fun s p hp hcap => ⟨fun hlen => ?fits, exec_fext_too_long hp hcap⟩
  case fits => exact ⟨_, extract_walk s.cfg p, exec_fext hp hlen⟩

/-- Settles O15: a walk over one known identifier and its value can only make its record. -/
theorem fextDecodesOneField : Obligations.FextDecodesOneField := by
  intro s id value d hp hid hvalue hl hlen
  obtain ⟨f, hf, hout⟩ := walk_single (extract_walk s.cfg _) hid hvalue hl
  refine ⟨f, hf, ?_, val_of_decodesTo hf⟩
  rw [exec_fext hp (by rwa [List.length_append]), hout]
  rfl

/-- Settles O16: each pass takes at least four bytes, and 255 bytes hold at most 63 times four. -/
theorem extractionIsBounded : Obligations.ExtractionIsBounded := by
  intro g p hp
  refine ⟨fun n hn => ?stops, fun fuel hfuel => ?result, ?records, fun _ _ => extractPass_pos⟩
  case stops =>
    refine Option.eq_none_iff_forall_ne_some.2 fun c' h => ?_
    obtain ⟨hmoved, hinside⟩ := iterate_extractPass_pos (Nat.zero_le _) h
    omega
  case result => exact extractLoop_fuel _ _ _ (by simp only; omega) (by simp only; omega)
  case records =>
    have := extract_length g p
    omega

/-- Settles O17: the first match from the end is the last one in the list. -/
theorem mappingViewKeepsTheLast : Obligations.MappingViewKeepsTheLast := by
  intro records id f
  rw [fieldOf, List.find?_eq_some_iff_append]
  simp only [beq_iff_eq, Bool.not_eq_true', beq_eq_false_iff_ne]
  constructor
  · rintro ⟨hid, later, earlier, hrev, hlater⟩
    refine ⟨earlier.reverse, later.reverse, ?_, hid,
      fun f' hf' => hlater f' (List.mem_reverse.1 hf')⟩
    rw [← List.reverse_reverse records, hrev]
    simp
  · rintro ⟨pre, post, rfl, hid, hpost⟩
    exact ⟨hid, post.reverse, pre.reverse, by simp, fun f' hf' => hpost f' (List.mem_reverse.1 hf')⟩

end Sys2Proof.Machine

/-! ### The checksum (42_checksum.md R111 to R115) -/

namespace Sys2Proof.Machine

open Sys2Proof.Claims

section ChecksumOperation
variable {s : State} {p : List Byte}

/-- CSUM takes the declared length from `LEN`, whatever number of bytes is presented (R113). -/
theorem exec_csum (h : Presents s.opr p) (hp : p.length ≤ 255) :
    exec .csum s = .next { s with res := { Results.noValues 0x01 0 0 0 with
      R_CSCALC := some (checksum s.opr.WADDR s.opr.CC s.opr.LEN p) } } := by
  rw [exec_of_presents .csum h (hp.trans (by decide)), operationOf, csum,
    payloadBound_ok (h.1 ▸ hp), presentedData_of_presents h]
  rfl

/-- CSUM of a payload above the bound (30_encoding.md R56). -/
theorem exec_csum_too_long (h : Presents s.opr p) (hcap : p.length ≤ DCAP)
    (hlong : 255 < p.length) :
    exec .csum s = .next (failed s 7 (BitVec.ofNat 16 p.length) 255) := by
  rw [exec_of_presents .csum h hcap, operationOf, csum, ← h.1, payloadBound_error hlong,
    except_error_bind, resultsOf_error_eq_failed]
  rfl

end ChecksumOperation

section ChecksumAlgebra
variable (wire : Vector Byte 6) (cc len : Byte) (p : List Byte)

/-- A checksum behind the bytes it covers cancels them (R115 (a)). -/
theorem xorAll_append_checksum :
    xorAll (wire.toList ++ [cc] ++ [len] ++ p ++ [checksum wire cc len p]) = 0 := by
  rw [xorAll_append, ← checksum]
  simp

/-- The same difference at two places cancels (R115 (c)). -/
theorem xorAll_set_set (l : List Byte) {j k : Nat} (hj : j < l.length) (hk : k < l.length)
    (d : Byte) (hjk : j ≠ k) :
    xorAll ((l.set j (l[j] ^^^ d)).set k (l[k] ^^^ d)) = xorAll l := by
  have hother : (l.set j (l[j] ^^^ d))[k]'(by rwa [List.length_set]) = l[k] :=
    List.getElem_set_ne hjk _
  rw [← hother, xorAll_set, xorAll_set, BitVec.xor_assoc, BitVec.xor_self, BitVec.xor_zero]

/-- The transform does not reach the checksum (R115 (d)). -/
theorem checksum_transform : checksum (transform wire) cc len p = checksum wire cc len p := by
  rw [checksum_eq, checksum_eq, xorAll_transform]

end ChecksumAlgebra

/-- Settles O18: only the payload bound is checked, and the exclusive or of the statements, from the
right, is the model's, from the left. -/
theorem csumComputesTheChecksum : Obligations.CsumComputesTheChecksum := by
  refine fun s p hp hcap => ⟨fun hlen => ?fits, exec_csum_too_long hp hcap⟩
  case fits =>
    rw [checkOf_eq_checksum]
    exact exec_csum hp hlen

/-- Settles O19: the exclusive or is associative and every byte is its own inverse. -/
theorem checksumLaws : Obligations.ChecksumLaws :=
  ⟨xorAll_append_checksum, xorAll_set, fun covered _ _ => xorAll_set_set covered,
    checksum_transform⟩

end Sys2Proof.Machine

/-! ### The frame builder (43_frame_builder.md R121 to R131) -/

namespace Sys2Proof.Machine

open Sys2Proof.Claims

section Outcomes
variable {i : Instr} {s : State}

/-- The operations that read `DBUF`, in the statements and in the model. -/
theorem readsData_iff : ReadsData i ↔ readsData i = true := by
  cases i <;> simp [ReadsData, readsData]

/-- An operation that raises an error leaves that error and no other result. -/
theorem exec_of_error (err : Err) {info0 info1 : Half}
    (hd : readsData i = true → s.opr.DLEN.toNat ≤ DCAP)
    (h : operationOf i s.cfg s.opr = .error ⟨err, info0, info1⟩) :
    exec i s = .next (failed s err.code info0 info1) := by
  rw [exec_eq i s hd, h, resultsOf_error_eq_failed]

/-- An operation that emits within the payload bound leaves exactly the frame (R122, R129). -/
theorem builds_of_emit {wire : Vector Byte 6} {cc : Byte} {p : List Byte}
    (hd : readsData i = true → s.opr.DLEN.toNat ≤ DCAP) (hp : p.length ≤ 255)
    (h : operationOf i s.cfg s.opr = .ok (emit wire cc p)) : Builds i s wire cc p := by
  refine ⟨(emit wire cc p).TXBUF, ?_, emit_wf wire cc p hp, ?_⟩
  · rw [exec_eq i s hd, h]
    rfl
  · rw [wireFrame_eq]
    exact emit_holds wire cc p hp

/-- An operation whose first check is the address fails on a malformed one, whatever follows
(R121 check 1). -/
theorem exec_of_malformed {f : Vector Byte 6 → Except Raised Results}
    (hd : readsData i = true → s.opr.DLEN.toNat ≤ DCAP)
    (h : operationOf i s.cfg s.opr = addressOperand s.opr >>= f) (hm : Malformed s.opr) :
    exec i s = .next (failed s 1 0 (BitVec.ofNat 16 s.opr.A_LEN.toNat)) := by
  rw [addressOperand_error (malformed_iff.1 hm), except_error_bind, zeroExtend_eq_ofNat] at h
  exact exec_of_error .invalidAddress hd h

/-- An operation that checks slot 0 right after the address fails on an ill-shaped identifier there,
whatever follows (R121 check 3). -/
theorem exec_of_ill_shaped {f : Vector Byte 6 → List Byte → Except Raised Results}
    (hd : readsData i = true → s.opr.DLEN.toNat ≤ DCAP)
    (h : operationOf i s.cfg s.opr = addressOperand s.opr >>= fun canonical =>
      identifierOperand s.cfg.VARIANT s.opr 0 >>= f canonical)
    (ha : validAddress s.opr) (hs : ¬ WellShaped s 0) :
    exec i s = .next (failed s 2 1 (BitVec.ofNat 16 (s.opr.ID_LEN[0]).toNat)) := by
  rw [addressOperand_ok ha, except_ok_bind, identifierOperand_error hs, except_error_bind,
    zeroExtend_eq_ofNat] at h
  exact exec_of_error .invalidFieldIdentifier hd h

theorem slotBytes_length (s : State) (k : Fin 64) :
    (slotBytes s k).length = idw s.cfg.VARIANT := slot_length _ _

end Outcomes

/-! #### A built frame presented to PARSE (R130) -/

/-- What every builder's frame is made of: the wire address its operands give, and a payload within the
bound that has room for an identifier, except in a broadcast or a multi-read of none. -/
structure BuiltFrom (i : Instr) (g : Configuration) (o : Operands) (wire : Vector Byte 6)
    (p : List Byte) : Prop where
  addressed : i ≠ .bbcast → validAddress o ∧ wire = transform (canonicalBytes o)
  broadcast : i = .bbcast → wire = broadcastWire
  bound : p.length ≤ 255
  identifier : i ≠ .bbcast → ¬ (i = .bmread ∧ o.NID = 0) → idw g.VARIANT ≤ p.length

section BuiltFrames
variable {g : Configuration} {o : Operands} {wire : Vector Byte 6} {cc : Byte} {p : List Byte}

theorem builder_eq_ok_builtFrom {i : Instr} {r : Results} (hi : IsBuilder i)
    (h : operationOf i g o = .ok r) : ∃ wire cc p, r = emit wire cc p ∧ BuiltFrom i g o wire p := by
  have hw := idw_le g.VARIANT
  cases i with
  | bread =>
    obtain ⟨hv, -, hr⟩ := bread_eq_ok h
    exact ⟨_, _, _, hr, fun _ => ⟨hv, rfl⟩, nofun, by rw [slot_length]; omega,
      fun _ _ => (slot_length _ _).ge⟩
  | bwrite =>
    obtain ⟨hv, -, hb, hr⟩ := bwrite_eq_ok h
    exact ⟨_, _, _, hr, fun _ => ⟨hv, rfl⟩, nofun,
      by rwa [List.length_append, slot_length, presentedData_length],
      fun _ _ => by rw [List.length_append, slot_length]; omega⟩
  | bmread =>
    obtain ⟨hv, hn, -, hb, hr⟩ := bmread_eq_ok h
    refine ⟨_, _, _, hr, fun _ => ⟨hv, rfl⟩, nofun, ?_, fun _ hsome => ?_⟩ <;>
      rw [multiread_length, firstSlots_length hn]
    · exact hb
    · have hpos : o.NID.toNat ≠ 0 := fun h0 => hsome ⟨rfl, BitVec.eq_of_toNat_eq h0⟩
      exact Nat.le_mul_of_pos_left _ (Nat.pos_of_ne_zero hpos)
  | bbcast =>
    obtain ⟨hb, hr⟩ := bbcast_eq_ok (g := g) h
    exact ⟨_, _, _, hr, fun hne => absurd rfl hne, fun _ => rfl, by rwa [presentedData_length],
      fun hne => absurd rfl hne⟩
  | bctrl =>
    obtain ⟨hv, -, hr⟩ := bctrl_eq_ok h
    have hlen : ((o.ID_B[(0 : Fin 64)]).toList.take (idw g.VARIANT) ++ [o.CMDB]).length =
        idw g.VARIANT + 1 := by
      rw [List.length_append, slot_length, List.length_singleton]
    exact ⟨_, _, _, hr, fun _ => ⟨hv, rfl⟩, nofun, by omega, fun _ _ => by omega⟩
  | aenc | adec | rlook | fext | csum | parse => exact hi.elim

/-- A builder that leaves a `TXLEN` has emitted a frame of that length. -/
theorem builder_txlen_builtFrom {i : Instr} {s t : State} {n : Half} (hi : IsBuilder i)
    (h : exec i s = .next t) (hn : t.res.TXLEN = some n) : ∃ wire cc p,
      t.res = emit wire cc p ∧ BuiltFrom i s.cfg s.opr wire p ∧
        n = BitVec.ofNat 16 (11 + p.length) := by
  obtain ⟨-, rfl⟩ := exec_next h
  cases hop : operationOf i s.cfg s.opr with
  | error e => rw [hop] at hn; cases hn
  | ok r =>
    obtain ⟨wire, cc, p, rfl, hbuilt⟩ := builder_eq_ok_builtFrom hi hop
    rw [hop] at hn
    exact ⟨wire, cc, p, rfl, hbuilt, (Option.some.inj hn).symm⟩

/-- Stages 2, 3 and 4 read the buffer only, so they pass on their three checks alone. -/
theorem runStages_checks {b : List Byte}
    (h2 : byteAt b 0 = startMarker ∧ byteAt b (b.length - 1) = endMarker)
    (h3 : expectedTotal (byteAt b 8) = b.length) (h4 : bufferCalc b = bufferCheck b)
    (r : ParseRegs) : ∃ r', runStages g b [.delimiters, .structuralSlice, .integrity] r = .ok r' := by
  unfold bufferCalc bufferAddress bufferPayload bufferCheck at h4
  simp only [runStages, runStage, stageDelimiters, decide_eq_true h2, stageStructure,
    decide_eq_true h3, stageIntegrity, decide_eq_true h4, require_true, except_ok_bind, except_pure,
    Except.ok.injEq, exists_eq']

theorem runStages_frame (hp : p.length ≤ 255) (r : ParseRegs) : ∃ r',
    runStages g (frameBytes wire cc p) [.delimiters, .structuralSlice, .integrity] r = .ok r' := by
  have hf := frameBytes_isFrame wire cc p hp
  exact runStages_checks ⟨hf.startMark, hf.endMark⟩ hf.length.symm
    (by rw [frame_calc wire cc p hp, frame_check wire cc p hp]) r

/-- The payload bytes of a frame are at offset 9 (30_encoding.md R52). -/
theorem frameBytes_payload {a : Nat} (h : a < p.length) : (frameBytes wire cc p)[9 + a]? = p[a]? := by
  rw [frameBytes_eq, Nat.add_comm 9 a]
  exact List.getElem?_append_left h

/-- PARSE of a presented frame below the floor. -/
theorem exec_parse_frame_short {u : State} (hp : p.length ≤ 255)
    (h : Presents u.opr (wireFrame wire cc p)) (hmin : 11 + p.length < minLen u.cfg.VARIANT) :
    exec .parse u = .next (failed u 3 (BitVec.ofNat 16 (11 + p.length))
      (BitVec.ofNat 16 (minLen u.cfg.VARIANT))) := by
  rw [exec_parse_wireFrame hp h, parseBuffer_short (by rwa [frameBytes_length]),
    frameBytes_length, resultsOf_error_eq_failed]
  rfl

/-- PARSE of a presented frame from the floor on gives back its address and its payload. -/
theorem exec_parse_frame_accepted {u : State} (hp : p.length ≤ 255)
    (h : Presents u.opr (wireFrame wire cc p)) (hmin : minLen u.cfg.VARIANT ≤ 11 + p.length) :
    ∃ t, exec .parse u = .next t ∧ t.res.ERRC = 0 ∧
      t.res.R_ADDR = some (restoreAddress wire) ∧
      t.res.R_PLEN = some (BitVec.ofNat 8 p.length) ∧ Memory.Holds .rpay t.res.R_PAY p := by
  rw [exec_parse_wireFrame hp h, parse_frame wire cc p hp hmin]
  exact ⟨_, rfl, rfl, rfl, rfl, Memory.holds_write rfl hp⟩

/-- The broadcast address spells FFFFFFFFFFFF. -/
theorem restoreAddress_broadcastWire (c : Fin 12) : (restoreAddress broadcastWire)[c] = 0x46 := by
  revert c; decide

end BuiltFrames

/-- Settles O33: a built frame meets the three checks of stages 2 to 4, its identifier alone takes it
past the floor, and PARSE restores the address the builder transformed. -/
theorem builtFramesParse : Obligations.BuiltFramesParse := by
  intro i s t u n f hi hexec hn _ hf hcfg hu
  obtain ⟨wire, cc, p, hres, hbuilt, rfl⟩ := builder_txlen_builtFrom hi hexec hn
  have hp := hbuilt.bound
  rw [hres] at hf ⊢
  have hframe := emit_holds wire cc p hp
  obtain rfl : frameBytes wire cc p = f := hframe.unique hf
  have hpres : Presents u.opr (wireFrame wire cc p) := by rwa [wireFrame_eq]
  rw [frameLength_toNat hp, Nat.add_sub_cancel_left, ← hcfg]
  refine ⟨runStages_frame hp _, exec_parse_frame_short hp hpres, fun hb hm => ?floor,
    fun hmin => ?accepted⟩
  case floor =>
    have hid := hbuilt.identifier hb hm
    have hfloor := minLen_le_idw u.cfg.VARIANT
    rw [← hcfg] at hid
    omega
  case accepted =>
    obtain ⟨t', hparse, herrc, haddr, hplen, hpay⟩ := exec_parse_frame_accepted hp hpres hmin
    refine ⟨t', _, hparse, herrc, haddr, hplen, fun a ha => ?payload, fun hb => ?upper,
      fun hb => ?broadcast⟩
    case payload => rw [hpay a, hframe (9 + a), frameBytes_payload ha]
    case upper =>
      obtain ⟨hvalid, rfl⟩ := hbuilt.addressed hb
      rw [restore_transform]
      exact upperOf_canonicalChars hvalid
    case broadcast =>
      obtain rfl := hbuilt.broadcast hb
      exact restoreAddress_broadcastWire

/-! #### The five builders, check by check -/

section Emissions
variable {g : Configuration} {o : Operands}

/-- BREAD past its checks. -/
theorem bread_eq_emit (ha : validAddress o) (hs : (o.ID_LEN[(0 : Fin 64)]).toNat = idw g.VARIANT) :
    bread g o = .ok (emit (transform (canonicalBytes o)) readCC
      ((o.ID_B[(0 : Fin 64)]).toList.take (idw g.VARIANT))) := by
  rw [bread, addressOperand_ok ha, except_ok_bind, identifierOperand_ok hs, except_ok_bind,
    except_pure]

theorem controlCC_of_revised (h : g.VARIANT = .revised) : controlCC g = 0x0F := by
  rw [controlCC, h]
  rfl

theorem controlCC_of_legacy (h : g.VARIANT = .legacy) : controlCC g = g.LEGACY_CONTROL_CC := by
  rw [controlCC, h]

/-- BCTRL past its checks. -/
theorem bctrl_eq_emit (ha : validAddress o) (hs : (o.ID_LEN[(0 : Fin 64)]).toNat = idw g.VARIANT) :
    bctrl g o = .ok (emit (transform (canonicalBytes o)) (controlCC g)
      ((o.ID_B[(0 : Fin 64)]).toList.take (idw g.VARIANT) ++ [o.CMDB])) := by
  rw [bctrl, addressOperand_ok ha, except_ok_bind, identifierOperand_ok hs, except_ok_bind,
    except_pure]

/-- BWRITE past the address and the identifier: the payload bound is what remains. -/
theorem bwrite_eq_bound (ha : validAddress o)
    (hs : (o.ID_LEN[(0 : Fin 64)]).toNat = idw g.VARIANT) :
    bwrite g o = (payloadBound (idw g.VARIANT + o.DLEN.toNat) >>= fun _ =>
      .ok (emit (transform (canonicalBytes o)) o.CC
        ((o.ID_B[(0 : Fin 64)]).toList.take (idw g.VARIANT) ++ presentedData o))) := by
  rw [bwrite, addressOperand_ok ha, except_ok_bind, identifierOperand_ok hs, except_ok_bind]
  rfl

/-- BMREAD of more identifiers than there are slots reads none of them (R125). -/
theorem bmread_too_many (ha : validAddress o) (hn : 64 < o.NID.toNat) :
    bmread g o = .error ⟨.payloadTooLong, BitVec.ofNat 16 (o.NID.toNat * idw g.VARIANT), 255⟩ := by
  have hn' : ¬ o.NID.toNat ≤ MAXID := Nat.not_le.2 hn
  rw [bmread, addressOperand_ok ha, except_ok_bind, decide_eq_false hn', require_false,
    except_error_bind]

/-- BMREAD past the address and the number of identifiers: the slots, then the payload bound. -/
theorem bmread_eq_slots (ha : validAddress o) (hn : o.NID.toNat ≤ 64) :
    bmread g o = (identifierOperands g.VARIANT o (firstSlots o.NID.toNat) >>= fun ids =>
      payloadBound (o.NID.toNat * idw g.VARIANT) >>= fun _ =>
        .ok (emit (transform (canonicalBytes o)) readCC ids.flatten)) := by
  have hn' : o.NID.toNat ≤ MAXID := hn
  rw [bmread, addressOperand_ok ha, except_ok_bind, decide_eq_true hn', require_true, except_ok_bind]
  rfl

end Emissions

/-- Settles O20: the address, then slot 0, then the emission. -/
theorem breadBuildsAReadFrame : Obligations.BreadBuildsAReadFrame := by
  refine fun s => ⟨exec_of_malformed nofun rfl, fun wire haddr => ?_⟩
  obtain ⟨ha, rfl⟩ := eq_transform_of_addressString haddr
  refine ⟨exec_of_ill_shaped nofun rfl ha,
    fun hs => builds_of_emit nofun ?bound (bread_eq_emit ha hs)⟩
  case bound => exact (slotBytes_length s 0).trans_le ((idw_le _).trans (by decide))

/-- Settles O21: the address, then slot 0, then the payload bound, then the emission. -/
theorem bwriteBuildsAWriteFrame : Obligations.BwriteBuildsAWriteFrame := by
  intro s value hv hcap
  have hd : readsData .bwrite = true → s.opr.DLEN.toNat ≤ DCAP := fun _ => hv.1 ▸ hcap
  refine ⟨exec_of_malformed hd rfl, fun wire haddr => ?_⟩
  obtain ⟨ha, rfl⟩ := eq_transform_of_addressString haddr
  refine ⟨exec_of_ill_shaped hd rfl ha, fun hs hlong => exec_of_error .payloadTooLong hd ?long,
    fun hs hfits => builds_of_emit hd ?bound ?emit⟩
  case long => rw [operationOf, bwrite_eq_bound ha hs, ← hv.1, payloadBound_error hlong]; rfl
  case bound => rwa [List.length_append, slotBytes_length]
  case emit =>
    rw [operationOf, bwrite_eq_bound ha hs, ← hv.1, payloadBound_ok hfits,
      presentedData_of_presents hv]
    rfl

/-- Settles O22: the address, the number of identifiers, the first ill-shaped slot, the payload bound,
then the emission. -/
theorem bmreadBuildsAMultiReadFrame : Obligations.BmreadBuildsAMultiReadFrame := by
  refine fun s => ⟨exec_of_malformed nofun rfl, fun wire haddr => ?_⟩
  obtain ⟨ha, rfl⟩ := eq_transform_of_addressString haddr
  refine ⟨fun hn => exec_of_error .payloadTooLong nofun (bmread_too_many ha hn),
    fun k hn hk hill hbelow => ?slot, fun hn hshaped => ?shaped⟩
  case slot =>
    obtain ⟨before, after, hslots, hbefore⟩ := firstSlots_split hk
    refine exec_of_error .invalidFieldIdentifier nofun ?_
    rw [operationOf, bmread_eq_slots ha hn, hslots,
      identifierOperands_error (fun j hj => hbelow j (hbefore j hj)) hill, except_error_bind,
      zeroExtend_eq_ofNat]
  case shaped =>
    have hids := identifierOperands_ok (v := s.cfg.VARIANT) (o := s.opr)
      fun k hk => hshaped k (firstSlots_mem.1 hk)
    have hpast := bmread_eq_slots (g := s.cfg) ha hn
    rw [hids, except_ok_bind] at hpast
    refine ⟨fun hlong => exec_of_error .payloadTooLong nofun ?long,
      fun hfits => builds_of_emit nofun ?bound ?emit⟩
    case long => rw [operationOf, hpast, payloadBound_error hlong]; rfl
    case bound =>
      have hlen := multiread_length (o := s.opr) (v := s.cfg.VARIANT) (firstSlots s.opr.NID.toNat)
      rw [firstSlots_length hn] at hlen
      exact hlen.trans_le hfits
    case emit => rw [operationOf, hpast, payloadBound_ok hfits]; rfl

/-- Settles O23: only the payload bound is checked. -/
theorem bbcastBuildsABroadcastFrame : Obligations.BbcastBuildsABroadcastFrame := by
  intro s p hp hcap
  have hd : readsData .bbcast = true → s.opr.DLEN.toNat ≤ DCAP := fun _ => hp.1 ▸ hcap
  refine ⟨fun hfits => builds_of_emit hd hfits ?emit,
    fun hlong => exec_of_error .payloadTooLong hd ?long⟩
  case emit =>
    rw [operationOf, bbcast, ← hp.1, payloadBound_ok hfits, presentedData_of_presents hp]
    rfl
  case long => rw [operationOf, bbcast, ← hp.1, payloadBound_error hlong]; rfl

/-- Settles O24: the address, then slot 0, then the emission under the variant's control code. -/
theorem bctrlBuildsAControlFrame : Obligations.BctrlBuildsAControlFrame := by
  refine fun s => ⟨exec_of_malformed nofun rfl, fun wire haddr => ?_⟩
  obtain ⟨ha, rfl⟩ := eq_transform_of_addressString haddr
  have hbuilds (hs : WellShaped s 0) : Builds .bctrl s (transform (canonicalBytes s.opr))
      (controlCC s.cfg) (slotBytes s 0 ++ [s.opr.CMDB]) := by
    refine builds_of_emit nofun ?_ (bctrl_eq_emit ha hs)
    have := idw_le s.cfg.VARIANT
    rw [List.length_append, slotBytes_length, List.length_singleton]
    omega
  exact ⟨exec_of_ill_shaped nofun rfl ha, fun hs hv => controlCC_of_revised hv ▸ hbuilds hs,
    fun hs hv => controlCC_of_legacy hv ▸ hbuilds hs⟩

/-- Settles O40: only the operations that read `DBUF` look at `DLEN` before they run. -/
theorem everyOperationCompletes : Obligations.EveryOperationCompletes := by
  refine fun i s => ⟨fun hd => ⟨_, exec_eq i s fun _ => hd⟩, fun hi => ⟨_, exec_eq i s ?_⟩,
    fun hi => exec_refused i s (readsData_iff.1 hi)⟩
  exact fun hr => absurd (readsData_iff.2 hr) hi

end Sys2Proof.Machine

/-! ### The frame parser (44_frame_parser.md R140 to R156) -/

namespace Sys2Proof.Machine

open Sys2Proof.Claims

section Frames
variable {s t : State} {wire : Vector Byte 6} {cc : Byte} {p : List Byte}

/-- `ST` after an accepted frame (R150). -/
theorem completed_ccKnownOf (v : Variant) (cc : Byte) : Results.completed (ccKnownOf v cc) =
    Results.noValues (if cc ∈ ccSet v then 0x05 else 0x01) 0 0 0 := by
  simp only [completed_eq, ccKnownOf, List.contains_iff_mem]

/-- PARSE of a presented frame from the floor on: every result register (R150). -/
theorem exec_parse_frame (hp : p.length ≤ 255) (hmin : minLen s.cfg.VARIANT ≤ 11 + p.length)
    (h : Presents s.opr (wireFrame wire cc p)) :
    exec .parse s = .next { s with res :=
      { Results.noValues (if cc ∈ ccSet s.cfg.VARIANT then 0x05 else 0x01) 0 0 0 with
        R_ADDR := some (restoreAddress wire)
        R_CC := some cc
        R_PLEN := some (BitVec.ofNat 8 p.length)
        R_PAY := Memory.write .rpay [] 0 p
        R_CSRX := some (checkOf wire cc (BitVec.ofNat 8 p.length) p)
        R_CSCALC := some (checkOf wire cc (BitVec.ofNat 8 p.length) p)
        R_NF := some (BitVec.ofNat 8 (extract s.cfg p).length)
        R_F := extract s.cfg p } } := by
  rw [exec_parse_wireFrame hp h, parse_frame wire cc p hp hmin, completed_ccKnownOf,
    checkOf_eq_checksum, resultsOf_ok]

/-- A BWRITE that leaves a `TXLEN` has emitted the identifier and the presented value under `CC`, for
the address given (43_frame_builder.md R124). -/
theorem exec_bwrite_TXLEN {n : Half} {value : List Byte} (hv : Presents s.opr value)
    (h : exec .bwrite s = .next t) (hn : t.res.TXLEN = some n) : validAddress s.opr ∧
      (slotBytes s 0 ++ value).length ≤ 255 ∧
      t.res = emit (transform (canonicalBytes s.opr)) s.opr.CC (slotBytes s 0 ++ value) := by
  obtain ⟨-, rfl⟩ := exec_next h
  cases hop : operationOf .bwrite s.cfg s.opr with
  | error e => rw [hop] at hn; cases hn
  | ok r =>
    obtain ⟨ha, -, hbound, rfl⟩ := bwrite_eq_ok hop
    rw [← hv.1] at hbound
    rw [presentedData_of_presents hv]
    exact ⟨ha, by rwa [List.length_append, slotBytes_length], rfl⟩

end Frames

/-- Settles O34: the identifier takes the frame past the floor, PARSE restores the address that BWRITE
transformed, and the walk over the identifier and its value makes one record. -/
theorem responseRoundTrip : Obligations.ResponseRoundTrip := by
  intro s t u n f value hcc hv hexec hn _ hf hcfg hu
  obtain ⟨ha, hp, hres⟩ := exec_bwrite_TXLEN hv hexec hn
  rw [hres, hcc] at hf
  obtain rfl := (emit_holds _ _ _ hp).unique hf
  rw [← wireFrame_eq] at hu
  have hmin : minLen u.cfg.VARIANT ≤ 11 + (slotBytes s 0 ++ value).length := by
    have hfloor := minLen_le_idw u.cfg.VARIANT
    rw [List.length_append, slotBytes_length, ← hcfg]
    omega
  refine ⟨_, _, exec_parse_frame hp hmin hu, rfl, rfl, ?upper, rfl, fun d hl hwidth => ?record⟩
  case upper =>
    rw [restore_transform]
    exact upperOf_canonicalChars ha
  case record =>
    obtain ⟨f, hf, hout⟩ :=
      walk_single (extract_walk s.cfg _) (slotBytes_length s 0) hwidth hl
    exact ⟨f, by rw [hcfg, hout], hf⟩

section Errors
variable {s : State} {b : List Byte}

/-- PARSE of presented bytes that the parser's machine rejects writes the status and error registers
only (R140). -/
theorem exec_parse_of_error {e : Raised} (h : Presents s.opr b) (hb : b.length ≤ DCAP)
    (he : parseBuffer s.cfg b = .error e) :
    exec .parse s = .next (failed s e.err.code e.info0 e.info1) := by
  rw [exec_parse h hb, he, resultsOf_error_eq_failed]

theorem byteAt_of_getElem? {i : Nat} {x : Byte} (h : b[i]? = some x) : byteAt b i = x := by
  rw [byteAt, List.getD_eq_getElem?_getD, h, Option.getD_some]

/-- The last byte of a buffer is the one at offset `n - 1` (R142). -/
theorem byteAt_of_getLast? {x : Byte} (h : b.getLast? = some x) : byteAt b (b.length - 1) = x :=
  byteAt_of_getElem? (List.getLast?_eq_getElem? ▸ h)

/-- The recomputed checksum covers bytes 1 to 8 + `L` (R147). -/
theorem bufferCalc_eq_xorOf (h3 : expectedTotal (byteAt b 8) = b.length) :
    bufferCalc b = xorOf ((b.drop 1).take (8 + (byteAt b 8).toNat)) := by
  have hcovered : b.length - 2 = 1 + (8 + (byteAt b 8).toNat) := by
    rw [← h3, expectedTotal]
    omega
  rw [bufferCalc_eq_xorAll h3, hcovered, slice_eq, xorOf_eq_xorAll]

end Errors

/-- Settles O27: the error of the first check that fails, check by check. -/
theorem parseReportsTheFirstError : Obligations.ParseReportsTheFirstError := by
  intro s b hpres hcap
  refine ⟨fun hshort => exec_parse_of_error hpres hcap (parseBuffer_short hshort),
    fun hmin first last len check hfirst hlast hlen => ?_⟩
  obtain rfl := byteAt_of_getElem? hfirst
  obtain rfl := byteAt_of_getLast? hlast
  obtain rfl := byteAt_of_getElem? hlen
  refine ⟨fun hmark => ?delimiters, fun h0 h1 hne => ?length, fun h0 h1 heq hcheck hxor => ?checksum⟩
  case delimiters =>
    rw [← zeroExtend_eq_ofNat, ← zeroExtend_eq_ofNat]
    exact exec_parse_of_error hpres hcap (parseBuffer_delimiters hmin (not_and_or.2 hmark))
  case length =>
    rw [← lengthWord_eq (hcap.trans_lt (by decide))]
    exact exec_parse_of_error hpres hcap (parseBuffer_length hmin ⟨h0, h1⟩ hne)
  case checksum =>
    obtain rfl : bufferCheck b = check := byteAt_of_getElem? hcheck
    rw [← bufferCalc_eq_xorOf heq] at hxor ⊢
    rw [← zeroExtend_eq_ofNat, ← zeroExtend_eq_ofNat]
    exact exec_parse_of_error hpres hcap (parseBuffer_checksum hmin ⟨h0, h1⟩ heq hxor)

/-- Settles O28: an accepted frame gives back the parts it was made of. -/
theorem parseReturnsTheFrame : Obligations.ParseReturnsTheFrame := by
  intro s wire cc p hp hmin hpres
  have hfits : p.length ≤ Space.size .rpay := hp
  exact ⟨_, _, _, restoredAddress_restoreAddress wire,
    Memory.wf_write p (Memory.wf_nil _) (by omega), Memory.holds_write rfl hfits,
    extract_walk s.cfg p, exec_parse_frame hp hmin hpres⟩

/-! #### The order of the stages (R140, R154) -/

section Stages
variable {g : Configuration} {b : List Byte}

/-- A stage that fails after those before it have passed ends the machine with its error (R140). -/
theorem parseBuffer_of_stage_error {before after : List Stage} {st : Stage} {r : ParseRegs}
    {e : Raised} (horder : Stage.inOrder = before ++ st :: after)
    (hbefore : runStages g b before ParseRegs.start = .ok r)
    (hst : runStage g b { r with stage := st } = .error e) : parseBuffer g b = .error e := by
  rw [parseBuffer, horder, runStages_append hbefore, runStages, hst]
  simp only [except_error_bind]

/-- Stages 5, 6 and 7 check nothing (R148 to R150). -/
theorem runStage_ok {r : ParseRegs} (h : 5 ≤ r.stage.number) : ∃ r', runStage g b r = .ok r' := by
  cases hst : r.stage with
  | lengthFloor | delimiters | structuralSlice | integrity => simp [hst, Stage.number] at h
  | addressRestore | payloadDecode | result =>
    simp only [runStage, hst, except_pure, Except.ok.injEq, exists_eq']

/-- Stages 2, 3 and 4 (R142 to R147). -/
def checkStages : List Stage := [.delimiters, .structuralSlice, .integrity]

/-- The checks past the floor read the buffer and no configuration (R154). -/
theorem runStages_checkStages_eq (g g' : Configuration) (r : ParseRegs) :
    runStages g b checkStages r = runStages g' b checkStages r := rfl

/-- Past the floor the machine is its three checks, and then the results of what they took. -/
theorem parseBuffer_of_floor (hmin : minLen g.VARIANT ≤ b.length) :
    parseBuffer g b = runStages g b checkStages ParseRegs.start >>= fun r =>
      .ok (parseResults g
        { r with canon := restoreAddress r.address, fields := extract g r.payload }) := by
  have hfloor : runStages g b [.lengthFloor] ParseRegs.start = .ok ParseRegs.start := by
    simp only [runStages, runStage, stageFloor, decide_eq_true hmin, require_true, except_ok_bind,
      except_pure]
    rfl
  have hall : runStages g b Stage.inOrder ParseRegs.start = runStages g b
      (checkStages ++ [.addressRestore, .payloadDecode, .result]) ParseRegs.start :=
    runStages_append hfloor
  rw [parseBuffer, hall]
  cases hchecks : runStages g b checkStages ParseRegs.start with
  | error e => rw [runStages_append_error hchecks]; rfl
  | ok r => rw [runStages_append hchecks]; rfl

end Stages

/-- Settles O29: the run hands on the registers of the stages that pass and stops at the error of the
first that does not. -/
theorem stagesFailFast : Obligations.StagesFailFast :=
  ⟨fun _ _ _ _ _ _ _ hpres hcap horder hbefore hst =>
    exec_parse_of_error hpres hcap (parseBuffer_of_stage_error horder hbefore hst),
    fun _ _ _ => runStage_ok, rfl⟩

/-- Settles O36: past the floor the verdict is that of the checks, which read no configuration, and
only `ST` and the field registers of the results do. -/
theorem variantIsNotChecked : Obligations.VariantIsNotChecked := by
  intro s u b hs hu hcap hsmin humin
  refine ⟨_, _, exec_parse hs hcap, exec_parse hu hcap, ?_⟩
  rw [parseBuffer_of_floor hsmin, parseBuffer_of_floor humin, runStages_checkStages_eq u.cfg s.cfg]
  cases runStages s.cfg b checkStages ParseRegs.start with
  | error e => exact ⟨rfl, rfl, rfl, rfl, rfl, rfl, rfl, rfl, rfl⟩
  | ok r => exact ⟨rfl, rfl, rfl, rfl, rfl, rfl, rfl, rfl, rfl⟩

/-- The length byte tells at most 266 bytes (R146). -/
theorem expectedTotal_le (len : Byte) : expectedTotal len ≤ 266 := by
  have := len.isLt
  unfold expectedTotal
  omega

/-- Settles O30: a buffer above 266 bytes is past the floor and longer than any length byte tells. -/
theorem overlongBuffersFail : Obligations.OverlongBuffersFail := by
  intro g b hlong
  have hmin : minLen g.VARIANT ≤ b.length := by
    obtain h | h := minLen_cases g.VARIANT <;> omega
  have hne : expectedTotal (byteAt b 8) ≠ b.length := by
    have := expectedTotal_le (byteAt b 8)
    omega
  refine ⟨lengthWord b.length, lengthWord_toNat, ?_⟩
  split_ifs with hmark
  · exact parseBuffer_length hmin hmark hne
  · rw [parseBuffer_delimiters hmin hmark, zeroExtend_eq_ofNat, zeroExtend_eq_ofNat]

/-! #### A single flipped bit (R152) -/

section SetByte
variable {b : List Byte} {k : Nat} {x : Byte}

theorem getElem?_eq_byteAt {i : Nat} (h : i < b.length) : b[i]? = some (byteAt b i) := by
  rw [byteAt_eq_getElem h, List.getElem?_eq_getElem h]

theorem byteAt_set_self (hk : k < b.length) : byteAt (b.set k x) k = x := by
  rw [byteAt_eq_getElem (by rwa [List.length_set]), List.getElem_set_self]

theorem byteAt_set_ne {i : Nat} (h : k ≠ i) : byteAt (b.set k x) i = byteAt b i := by
  simp only [byteAt, List.getD_eq_getElem?_getD, List.getElem?_set_ne h]

/-- A byte changed by a difference other than 0 is another byte. -/
theorem byteAt_set_xor_ne (hk : k < b.length) {d : Byte} (hd : d ≠ 0) :
    byteAt (b.set k (b[k] ^^^ d)) k ≠ byteAt b k := by
  rw [byteAt_set_self hk, byteAt_eq_getElem hk]
  intro h
  exact hd (BitVec.xor_right_inj b[k] |>.1 (h.trans BitVec.xor_zero.symm))

theorem twoPow_ne_zero {j : Nat} (hj : j < 8) : BitVec.twoPow 8 j ≠ 0 := by
  intro h
  simpa [hj] using congrArg (fun d : Byte => d.getLsbD j) h

/-- The received and the recomputed checksum differ by the exclusive or of all bytes between the
markers (R147). -/
theorem bufferCalc_xor_bufferCheck (h3 : expectedTotal (byteAt b 8) = b.length) :
    bufferCalc b ^^^ bufferCheck b = xorAll (slice b 1 (b.length - 1)) := by
  have hlen : b.length - 1 = 1 + (8 + (byteAt b 8).toNat + 1) := by
    rw [← h3, expectedTotal]
    omega
  have hlast : (b.drop 1)[8 + (byteAt b 8).toNat]? = some (bufferCheck b) := by
    rw [List.getElem?_drop, bufferCheck, ← getElem?_eq_byteAt (by omega)]
    congr 1
    omega
  rw [bufferCalc_eq_xorOf h3, xorOf_eq_xorAll, hlen, slice_eq, List.take_add_one, hlast,
    xorAll_append]
  simp

/-- A change between the markers changes the exclusive or of the bytes there by the same difference. -/
theorem xorAll_slice_set (hk : k < b.length - 1) (hk0 : k ≠ 0) (d : Byte) :
    xorAll (slice (b.set k (b[k] ^^^ d)) 1 (b.length - 1)) =
      xorAll (slice b 1 (b.length - 1)) ^^^ d := by
  have hin : k - 1 < (slice b 1 (b.length - 1)).length := by
    rw [slice_length]
    omega
  have hbyte : (slice b 1 (b.length - 1))[k - 1] = b[k] := by
    simp only [slice, List.getElem_take, List.getElem_drop]
    congr 1
    omega
  rw [← xorAll_set _ (k - 1) hin, hbyte, slice, slice, List.drop_set, if_neg (by omega),
    List.take_set]

end SetByte

section Corruption
variable {g : Configuration} {b : List Byte} {r : Results} {k : Nat} {d : Byte}

/-- A changed marker is reported by stage 2. -/
theorem parseBuffer_set_marker (h : parseBuffer g b = .ok r) (hk : k < b.length) (hd : d ≠ 0)
    (hplace : k = 0 ∨ k = b.length - 1) : ∃ info0 info1,
      parseBuffer g (b.set k (b[k] ^^^ d)) = .error ⟨.delimiterMismatch, info0, info1⟩ := by
  obtain ⟨hmin, ⟨hstart, hend⟩, -⟩ := parseBuffer_ok h
  have hne := byteAt_set_xor_ne hk hd
  refine ⟨_, _, parseBuffer_delimiters (by rwa [List.length_set]) ?_⟩
  rintro ⟨hstart', hend'⟩
  rw [List.length_set] at hend'
  obtain rfl | rfl := hplace
  · exact hne (hstart'.trans hstart.symm)
  · exact hne (hend'.trans hend.symm)

/-- A change between the markers leaves stage 2 as it was. -/
theorem markers_set (h : parseBuffer g b = .ok r) (hk0 : k ≠ 0) (hlast : k ≠ b.length - 1)
    (x : Byte) : byteAt (b.set k x) 0 = startMarker ∧
      byteAt (b.set k x) ((b.set k x).length - 1) = endMarker := by
  obtain ⟨-, hmarkers, -⟩ := parseBuffer_ok h
  rwa [List.length_set, byteAt_set_ne hk0, byteAt_set_ne hlast]

/-- A changed length byte is reported by stage 3. -/
theorem parseBuffer_set_length (h : parseBuffer g b = .ok r) (hk : 8 < b.length) (hd : d ≠ 0)
    (hlast : 8 ≠ b.length - 1) : ∃ info0 info1,
      parseBuffer g (b.set 8 (b[8] ^^^ d)) = .error ⟨.lengthMismatch, info0, info1⟩ := by
  obtain ⟨hmin, -, hlen, -⟩ := parseBuffer_ok h
  refine ⟨_, _, parseBuffer_length (by rwa [List.length_set])
    (markers_set h (by decide) hlast _) ?_⟩
  rw [List.length_set, ← hlen]
  intro heq
  refine byteAt_set_xor_ne hk hd (BitVec.eq_of_toNat_eq ?_)
  simp only [expectedTotal] at heq
  omega

/-- A change of any other byte is reported by stage 4. -/
theorem parseBuffer_set_covered (h : parseBuffer g b = .ok r) (hk : k < b.length) (hd : d ≠ 0)
    (hk0 : k ≠ 0) (hlast : k ≠ b.length - 1) (hk8 : k ≠ 8) : ∃ info0 info1,
      parseBuffer g (b.set k (b[k] ^^^ d)) = .error ⟨.checksumMismatch, info0, info1⟩ := by
  obtain ⟨hmin, -, hlen, hcheck, -⟩ := parseBuffer_ok h
  have hlen' : expectedTotal (byteAt (b.set k (b[k] ^^^ d)) 8) = (b.set k (b[k] ^^^ d)).length := by
    rwa [List.length_set, byteAt_set_ne hk8]
  have hdiff : bufferCalc (b.set k (b[k] ^^^ d)) ^^^ bufferCheck (b.set k (b[k] ^^^ d)) = d := by
    rw [bufferCalc_xor_bufferCheck hlen', List.length_set, xorAll_slice_set (by omega) hk0,
      ← bufferCalc_xor_bufferCheck hlen, hcheck, BitVec.xor_self, BitVec.zero_xor]
  refine ⟨_, _, parseBuffer_checksum (by rwa [List.length_set]) (markers_set h hk0 hlast _) hlen'
    fun heq => hd ?_⟩
  rw [← hdiff, heq, BitVec.xor_self]
  rfl

theorem Err.code_ne_zero (e : Err) : e.code ≠ 0 := by cases e <;> decide

/-- PARSE leaves `ERRC` = 0 only for a buffer that the parser's machine accepts. -/
theorem parseBuffer_ok_of_ERRC {s t : State} (hpres : Presents s.opr b)
    (h : exec .parse s = .next t) (herrc : t.res.ERRC = 0) :
    b.length ≤ DCAP ∧ ∃ r, parseBuffer s.cfg b = .ok r := by
  have hcap : b.length ≤ DCAP := hpres.1 ▸ (exec_next h).1 rfl
  rw [exec_parse hpres hcap] at h
  obtain rfl := Host.Outcome.next.inj h
  cases hparse : parseBuffer s.cfg b with
  | ok r => exact ⟨hcap, r, rfl⟩
  | error e =>
    rw [hparse] at herrc
    exact absurd herrc e.err.code_ne_zero

end Corruption

/-- Settles O31: the place of the byte decides the first check that sees the flipped bit. -/
theorem singleBitCorruptionIsReported : Obligations.SingleBitCorruptionIsReported := by
  intro s t u b k hk j hj hs hexec herrc hcfg hu
  obtain ⟨hcap, r, hok⟩ := parseBuffer_ok_of_ERRC hs hexec herrc
  have hcap' : (b.set k (b[k] ^^^ BitVec.twoPow 8 j)).length ≤ DCAP := by rwa [List.length_set]
  have hd := twoPow_ne_zero hj
  rw [← hcfg] at hok
  split_ifs with hmarker hk8
  · obtain ⟨i0, i1, he⟩ := parseBuffer_set_marker hok hk hd hmarker
    exact ⟨i0, i1, exec_parse_of_error hu hcap' he⟩
  · subst hk8
    obtain ⟨i0, i1, he⟩ := parseBuffer_set_length hok hk hd (not_or.1 hmarker).2
    exact ⟨i0, i1, exec_parse_of_error hu hcap' he⟩
  · obtain ⟨hk0, hlast⟩ := not_or.1 hmarker
    obtain ⟨i0, i1, he⟩ := parseBuffer_set_covered hok hk hd hk0 hlast hk8
    exact ⟨i0, i1, exec_parse_of_error hu hcap' he⟩

end Sys2Proof.Machine

/-! ### Error entry (60_exceptions.md R161, R165) -/

namespace Sys2Proof.Machine

/-- Whatever error a computation raises, it is not the error of a reserved command word, which belongs
to `step` (30_encoding.md R63). -/
def NoIllegalOp {α : Type} (x : Except Raised α) : Prop :=
  ∀ e, x = .error e → e.err ≠ .illegalOp

section NoIllegalOp

theorem noIllegalOp_ok {α : Type} (a : α) : NoIllegalOp (.ok a) := nofun

theorem NoIllegalOp.bind {α β : Type} {x : Except Raised α} {f : α → Except Raised β}
    (hx : NoIllegalOp x) (hf : ∀ a, NoIllegalOp (f a)) : NoIllegalOp (x >>= f) := by
  intro e h
  obtain he | ⟨a, -, he⟩ := except_bind_eq_error h
  · exact hx e he
  · exact hf a e he

theorem noIllegalOp_require {c : Bool} {err : Err} {i0 i1 : Half} (he : err ≠ .illegalOp) :
    NoIllegalOp (require c ⟨err, i0, i1⟩) := by
  intro e h
  rwa [require_eq_error h]

variable (g : Configuration) (o : Operands)

theorem noIllegalOp_addressOperand : NoIllegalOp (addressOperand o) :=
  (noIllegalOp_require (by decide)).bind fun _ => noIllegalOp_ok _

theorem noIllegalOp_identifierOperand (v : Variant) (k : Fin 64) :
    NoIllegalOp (identifierOperand v o k) :=
  (noIllegalOp_require (by decide)).bind fun _ => noIllegalOp_ok _

theorem noIllegalOp_identifierOperands (v : Variant) (ks : List (Fin 64)) :
    NoIllegalOp (identifierOperands v o ks) := by
  induction ks with
  | nil => exact noIllegalOp_ok _
  | cons k ks ih =>
    exact (noIllegalOp_identifierOperand o v k).bind fun _ => ih.bind fun _ => noIllegalOp_ok _

theorem noIllegalOp_payloadBound (n : Nat) : NoIllegalOp (payloadBound n) :=
  noIllegalOp_require (by decide)

theorem noIllegalOp_parseBuffer (b : List Byte) : NoIllegalOp (parseBuffer g b) := by
  intro e h
  obtain he | he | he | he := parseBuffer_error h <;> rw [he] <;> nofun

/-- The checks of an operation raise the codes of R161 that are not a reserved word's. -/
theorem noIllegalOp_operationOf (i : Instr) : NoIllegalOp (operationOf i g o) := by
  have haddr := noIllegalOp_addressOperand o
  have hid := noIllegalOp_identifierOperand o g.VARIANT 0
  have hbound := noIllegalOp_payloadBound
  cases i with
  | aenc => exact haddr.bind fun _ => noIllegalOp_ok _
  | adec => exact noIllegalOp_ok _
  | rlook => exact hid.bind fun _ => noIllegalOp_ok _
  | fext | csum | bbcast => exact (hbound _).bind fun _ => noIllegalOp_ok _
  | bread | bctrl => exact haddr.bind fun _ => hid.bind fun _ => noIllegalOp_ok _
  | bwrite =>
    exact haddr.bind fun _ => hid.bind fun _ => (hbound _).bind fun _ => noIllegalOp_ok _
  | bmread =>
    exact haddr.bind fun _ => (noIllegalOp_require (by decide)).bind fun _ =>
      (noIllegalOp_identifierOperands o _ _).bind fun _ => (hbound _).bind fun _ =>
        noIllegalOp_ok _
  | parse => exact noIllegalOp_parseBuffer g _

end NoIllegalOp

/-- The codes of R161 but the reserved word's 8. -/
theorem Err.code_range {e : Err} (h : e ≠ .illegalOp) : 1 ≤ e.code.toNat ∧ e.code.toNat ≤ 7 := by
  cases e with
  | illegalOp => exact absurd rfl h
  | _ => decide

section Success
variable {i : Instr} {g : Configuration} {o : Operands} {r : Results}

/-- No row of R17 lists an info word, so a successful operation leaves both as it starts: 0. -/
theorem EINFO_of_ok (h : operationOf i g o = .ok r) : r.EINFO0 = 0 ∧ r.EINFO1 = 0 := by
  obtain ⟨_, h0⟩ := value_of_not_lists (reg := .einfo0) h (by cases i <;> exact id)
  obtain ⟨_, h1⟩ := value_of_not_lists (reg := .einfo1) h (by cases i <;> exact id)
  exact ⟨ReadValue.half.inj (Option.some.inj h0), ReadValue.half.inj (Option.some.inj h1)⟩

/-- A successful operation sets `DONE` alone; PARSE may set `CC_KNOWN` as well (44_frame_parser.md
R150). -/
theorem ST_of_ok (h : operationOf i g o = .ok r) : r.ST = 0x01 ∨ (i = .parse ∧ r.ST = 0x05) := by
  cases i with
  | aenc =>
    obtain ⟨-, rfl⟩ := aenc_eq_ok (g := g) h
    exact .inl rfl
  | adec =>
    obtain rfl := Except.ok.inj h
    exact .inl rfl
  | rlook =>
    obtain rfl | ⟨d, rfl⟩ := rlook_eq_ok h <;> exact .inl rfl
  | fext =>
    obtain ⟨-, rfl⟩ := fext_eq_ok h
    exact .inl rfl
  | csum =>
    obtain ⟨-, rfl⟩ := csum_eq_ok (g := g) h
    exact .inl rfl
  | bread | bwrite | bmread | bbcast | bctrl =>
    obtain ⟨wire, cc, p, rfl⟩ := builder_eq_ok (by trivial) h
    exact .inl rfl
  | parse =>
    obtain ⟨k, hk⟩ := value_of_not_lists (reg := .st) h id
    have hst : r.ST = (Results.completed k).ST := ReadValue.byte.inj (Option.some.inj hk)
    cases k with
    | false => exact .inl hst
    | true => exact .inr ⟨rfl, hst⟩

end Success

/-- Settles O37: the outcome of the operation, results or error, decides between the two cases of
R165. -/
theorem errorEntry : Obligations.ErrorEntry := by
  intro i s t hexec
  obtain ⟨-, rfl⟩ := exec_next hexec
  refine ⟨rfl, rfl, ?_⟩
  cases hop : operationOf i s.cfg s.opr with
  | ok r =>
    have herrc := ERRC_of_ok hop
    have hst := ST_of_ok hop
    obtain ⟨h0, h1⟩ := EINFO_of_ok hop
    have hflags : doneFlag r.ST = true ∧ ¬ errFlag r.ST = true := by
      obtain hst | ⟨-, hst⟩ := hst <;> rw [hst] <;> decide
    obtain ⟨hdone, herr⟩ := hflags
    exact ⟨hdone, iff_of_false herr (not_not_intro herrc), fun hne => absurd herrc hne,
      fun _ => ⟨h0, h1, hst⟩⟩
  | error e =>
    have hne := e.err.code_ne_zero
    obtain ⟨hlow, hhigh⟩ := Err.code_range (noIllegalOp_operationOf s.cfg s.opr i e hop)
    have hflags : doneFlag 0x03 = true ∧ errFlag 0x03 = true := by decide
    obtain ⟨hdone, herr⟩ := hflags
    exact ⟨hdone, iff_of_true herr hne, fun _ => ⟨hlow, hhigh, rfl⟩, fun h => absurd h hne⟩

end Sys2Proof.Machine

/-! ### Reset and what is not detected (70_reset_and_hazards.md R192, R202) -/

namespace Sys2Proof.Machine

open Sys2Proof.Claims

/-- Settles O1: a reset block has the strap's variant and results in which only the status and error
registers hold a value. -/
theorem resetLeavesNoResults : Obligations.ResetLeavesNoResults := by
  refine ⟨rfl, rfl, rfl, rfl, ?variant, rfl, rfl, fun reg hs ha => ?noValue⟩
  case variant => rw [hostRead_variant, State.reset, constructed_cfg, variantBit_variantOfBit]
  case noValue => exact (read_eq_noValue ha).2 (value_noValues 0 0 0 0 hs)

section PairedErrors
variable {g : Configuration} {b : List Byte} {r : Results}

/-- The payload length that an accepted buffer declares is the number of its payload bytes (R144). -/
theorem bufferPayload_length (h3 : expectedTotal (byteAt b 8) = b.length) :
    (bufferPayload b).length = (byteAt b 8).toNat := by
  rw [bufferPayload, slice_length, ← h3, expectedTotal]
  omega

theorem bufferPayload_le (h3 : expectedTotal (byteAt b 8) = b.length) :
    (bufferPayload b).length ≤ 255 :=
  bufferPayload_length h3 ▸ Nat.le_of_lt_succ (byteAt b 8).isLt

/-- A received buffer is accepted when its markers and its length are right and all bytes between the
markers cancel under the exclusive or (42_checksum.md R115 (a)). -/
theorem parseBuffer_of_xorAll (h1 : minLen g.VARIANT ≤ b.length)
    (h2 : byteAt b 0 = startMarker ∧ byteAt b (b.length - 1) = endMarker)
    (h3 : expectedTotal (byteAt b 8) = b.length)
    (h4 : xorAll (slice b 1 (b.length - 1)) = 0) :
    parseBuffer g b = .ok (acceptedResults g b) :=
  parseBuffer_accepted h1 h2 h3
    (BitVec.xor_eq_zero_iff.1 ((bufferCalc_xor_bufferCheck h3).trans h4))

/-- Between the markers of an accepted buffer, all bytes cancel. -/
theorem xorAll_slice_of_ok (h : parseBuffer g b = .ok r) :
    xorAll (slice b 1 (b.length - 1)) = 0 := by
  obtain ⟨-, -, h3, h4, -⟩ := parseBuffer_ok h
  rw [← bufferCalc_xor_bufferCheck h3, h4, BitVec.xor_self]
  rfl

/-- The same change of two bytes between the markers leaves the exclusive or there as it was. -/
theorem xorAll_slice_set_set {j k : Nat} (hj : j < b.length - 1) (hk : k < b.length - 1)
    (hj0 : j ≠ 0) (hk0 : k ≠ 0) (hjk : j ≠ k) (d : Byte) :
    xorAll (slice ((b.set j (b[j] ^^^ d)).set k (b[k] ^^^ d)) 1 (b.length - 1)) =
      xorAll (slice b 1 (b.length - 1)) := by
  have hk' : k < (b.set j (b[j] ^^^ d)).length - 1 := by rwa [List.length_set]
  have hother : (b.set j (b[j] ^^^ d))[k] = b[k] := List.getElem_set_ne hjk _
  have hsecond := xorAll_slice_set hk' hk0 d
  simp only [List.length_set, hother] at hsecond
  rw [hsecond, xorAll_slice_set hj hj0, BitVec.xor_assoc, BitVec.xor_self, BitVec.xor_zero]

/-- The same change of two payload bytes of an accepted buffer gives an accepted one. -/
theorem parseBuffer_set_set (h : parseBuffer g b = .ok r) {j k : Nat} (hj9 : 9 ≤ j) (hk9 : 9 ≤ k)
    (hjk : j ≠ k) (hj : j < b.length - 2) (hk : k < b.length - 2) (d : Byte) :
    parseBuffer g ((b.set j (b[j] ^^^ d)).set k (b[k] ^^^ d)) =
      .ok (acceptedResults g ((b.set j (b[j] ^^^ d)).set k (b[k] ^^^ d))) := by
  obtain ⟨hmin, hmarkers, hlen, -⟩ := parseBuffer_ok h
  refine parseBuffer_of_xorAll ?_ ?_ ?_ ?_ <;> simp only [List.length_set]
  · exact hmin
  · rwa [byteAt_set_ne (by omega), byteAt_set_ne (by omega), byteAt_set_ne (by omega),
      byteAt_set_ne (by omega)]
  · rwa [byteAt_set_ne (by omega), byteAt_set_ne (by omega)]
  · rw [xorAll_slice_set_set (by omega) (by omega) (by omega) (by omega) hjk,
      xorAll_slice_of_ok h]

/-- `R_PAY` after an accepted buffer holds its payload (44_frame_parser.md R150). -/
theorem acceptedResults_holds (h3 : expectedTotal (byteAt b 8) = b.length) :
    Memory.Holds .rpay (acceptedResults g b).R_PAY (bufferPayload b) :=
  Memory.holds_write rfl (bufferPayload_le h3)

/-- `R_PAY` after an accepted buffer gives back every payload byte (44_frame_parser.md R150). -/
theorem read_R_PAY_of_ok (h : parseBuffer g b = .ok r) {a : Nat} (h9 : 9 ≤ a)
    (ha : a < b.length - 2) : Memory.read .rpay r.R_PAY (a - 9) = b[a]? := by
  obtain ⟨-, -, h3, -, rfl⟩ := parseBuffer_ok h
  have hin : a - 9 < (byteAt b 8).toNat := by
    rw [← h3, expectedTotal] at ha
    omega
  rw [acceptedResults_holds h3, bufferPayload, slice_eq, List.getElem?_take_of_lt hin,
    List.getElem?_drop, Nat.add_sub_cancel' h9]

end PairedErrors

/-- Settles O32: the two changes cancel in the exclusive or, which is all that PARSE checks of the
payload. -/
theorem pairedErrorsAreAccepted : Obligations.PairedErrorsAreAccepted := by
  intro s t u b j k hj hk bits hj9 hk9 hjk hj2 hk2 hs hexec herrc hcfg hu
  obtain ⟨hcap, r, hok⟩ := parseBuffer_ok_of_ERRC hs hexec herrc
  rw [← hcfg] at hok
  have hok' := parseBuffer_set_set hok hj9 hk9 hjk hj2 hk2 bits
  have hrun := exec_parse hu (by simpa only [List.length_set] using hcap)
  rw [hok'] at hrun
  refine ⟨_, hrun, rfl, ?first, ?second⟩
  case first =>
    rw [resultsOf_ok, read_R_PAY_of_ok hok' hj9 (by simpa only [List.length_set] using hj2),
      List.getElem?_set_ne hjk.symm, List.getElem?_set_self hj]
  case second =>
    rw [resultsOf_ok, read_R_PAY_of_ok hok' hk9 (by simpa only [List.length_set] using hk2),
      List.getElem?_set_self (by simpa only [List.length_set] using hk)]

end Sys2Proof.Machine

/-! ### The invariant along every run (70_reset_and_hazards.md R193, R194) -/

namespace Sys2Proof.Machine

open Sys2Proof.Claims

section Consistency
variable {g : Configuration} {o : Operands} {r : Results}

/-- The results of an error meet the invariant (60_exceptions.md R165). -/
theorem consistent_ofError (e : Raised) : Results.Consistent g (Results.ofError e) :=
  consistent_noValues (by decide) (iff_of_true (by decide) e.err.code_ne_zero)
    (by cases e.err <;> decide) (fun _ => by decide) fun h => absurd h (by decide)

theorem errFlag_completed (k : Bool) : ¬ errFlag (Results.completed k).ST = true := by
  cases k <;> decide

/-- The results a successful operation starts from meet the invariant. -/
theorem consistent_completed (k : Bool) : Results.Consistent g (Results.completed k) :=
  consistent_noValues (by cases k <;> decide) (by cases k <;> decide) (Nat.zero_le _)
    (absurd · (errFlag_completed k)) fun _ => ⟨rfl, rfl⟩

/-- A built frame of at most 255 payload bytes, in `TXLEN` and `TXBUF`. -/
theorem consistent_emit (wire : Vector Byte 6) (cc : Byte) {p : List Byte} (hp : p.length ≤ 255) :
    Results.Consistent g (emit wire cc p) :=
  { consistent_completed false with
    onError := (absurd · (errFlag_completed false))
    txbufWf := emit_wf wire cc p hp
    frame := fun n hn => by
      obtain rfl := Option.some.inj hn
      exact ⟨_, frameBytes_isFrame wire cc p hp,
        by rw [frameBytes_length, frameLength_toNat hp], emit_holds wire cc p hp⟩
    noFrame := nofun }

/-- The records of an extraction, over consistent results without an error. -/
theorem consistent_withFields (hwf : g.REGISTRY.wf = true) {p : List Byte} (hp : p.length ≤ 255)
    (hr : Results.Consistent g r) (hok : ¬ errFlag r.ST = true) :
    Results.Consistent g (withFields (extract g p) r) :=
  { hr with
    onError := (absurd · hok)
    fieldCount := fun n hn => by
      obtain rfl := Option.some.inj hn
      have hcount := extract_length g p
      rw [withFields_R_F, BitVec.toNat_ofNat, MAXF]
      omega
    noFields := nofun
    records := extract_decoded hwf p }

/-- The results of an accepted buffer before the fields are extracted (44_frame_parser.md R150). -/
def frameResults (g : Configuration) (b : List Byte) : Results :=
  { Results.completed (ccKnownOf g.VARIANT (byteAt b 7)) with
    R_ADDR := some (restoreAddress (bufferAddress b))
    R_CC := some (byteAt b 7)
    R_PLEN := some (byteAt b 8)
    R_PAY := Memory.write .rpay [] 0 (bufferPayload b)
    R_CSRX := some (bufferCheck b)
    R_CSCALC := some (bufferCalc b) }

theorem acceptedResults_eq_withFields (g : Configuration) (b : List Byte) :
    acceptedResults g b = withFields (extract g (bufferPayload b)) (frameResults g b) := rfl

/-- A payload of the declared length, and two checksums that the last check found equal. -/
theorem consistent_frameResults {b : List Byte} (h3 : expectedTotal (byteAt b 8) = b.length)
    (h4 : bufferCalc b = bufferCheck b) : Results.Consistent g (frameResults g b) :=
  { consistent_completed (ccKnownOf g.VARIANT (byteAt b 7)) with
    onError := (absurd · (errFlag_completed _))
    rpayWf := Memory.wf_write _ (Memory.wf_nil _) ((Nat.zero_add _).trans_le (bufferPayload_le h3))
    payload := fun n hn => by
      obtain rfl := Option.some.inj hn
      exact ⟨_, bufferPayload_length h3, acceptedResults_holds (g := g) h3⟩
    noPayload := nofun
    checksums := fun x hx => (congrArg some h4).trans hx }

theorem consistent_parseBuffer (hwf : g.REGISTRY.wf = true) {b : List Byte}
    (h : parseBuffer g b = .ok r) : Results.Consistent g r := by
  obtain ⟨-, -, h3, h4, rfl⟩ := parseBuffer_ok h
  rw [acceptedResults_eq_withFields]
  exact consistent_withFields hwf (bufferPayload_le h3) (consistent_frameResults h3 h4)
    (errFlag_completed _)

/-- A successful operation leaves consistent results: it writes one group of registers, by the rule
of that group. -/
theorem consistent_of_ok (hwf : g.REGISTRY.wf = true) {i : Instr}
    (h : operationOf i g o = .ok r) : Results.Consistent g r := by
  have hnoError := errFlag_completed false
  cases i with
  | aenc =>
    obtain ⟨-, rfl⟩ := aenc_eq_ok (g := g) h
    exact { consistent_completed false with onError := (absurd · hnoError) }
  | adec =>
    obtain rfl := Except.ok.inj h
    exact { consistent_completed false with onError := (absurd · hnoError) }
  | csum =>
    obtain ⟨-, rfl⟩ := csum_eq_ok (g := g) h
    exact { consistent_completed false with
      onError := (absurd · hnoError)
      checksums := nofun }
  | rlook =>
    obtain rfl | ⟨d, rfl⟩ := rlook_eq_ok h
    · exact { consistent_completed false with
        onError := (absurd · hnoError)
        hit := by simp [completed_eq] }
    · exact { consistent_completed false with
        onError := (absurd · hnoError)
        hit := iff_of_true rfl rfl }
  | fext =>
    obtain ⟨hbound, rfl⟩ := fext_eq_ok h
    exact consistent_withFields hwf (by rwa [presentedData_length]) (consistent_completed false)
      hnoError
  | bread | bwrite | bmread | bbcast | bctrl =>
    obtain ⟨wire, cc, p, rfl, hbuilt⟩ := builder_eq_ok_builtFrom (by trivial) h
    exact consistent_emit wire cc hbuilt.bound
  | parse => exact consistent_parseBuffer hwf h

theorem consistent_resultsOf (hwf : g.REGISTRY.wf = true) (i : Instr) :
    Results.Consistent g (resultsOf (operationOf i g o)) := by
  cases hop : operationOf i g o with
  | ok r => exact consistent_of_ok hwf hop
  | error e => exact consistent_ofError e

end Consistency

section Invariant
variable {s t : State}

/-- A step writes result registers only, and leaves them consistent. -/
theorem State.Inv.after_step (hinv : s.Inv) (h : step s = .next t) : t.Inv := by
  obtain ⟨i, -, hexec⟩ | ⟨e, -, rfl⟩ := step_next h
  · obtain ⟨-, rfl⟩ := exec_next hexec
    exact { hinv with results := consistent_resultsOf hinv.registry i }
  · exact { hinv with results := consistent_ofError _ }

theorem State.Inv.after_act {a : Action} (hinv : s.Inv) (h : act s a = .next t) : t.Inv := by
  cases a with
  | write w => exact hostWriteKeepsTheInvariant w s t hinv h
  | start => exact hinv.after_step h

theorem State.Inv.after_runs (hinv : s.Inv) (h : Runs s t) : t.Inv := by
  induction h with
  | refl => exact hinv
  | act t u a _ ha ih => exact ih.after_act ha

/-- The invariant bounds `DLEN`, so that no operation is refused (44_frame_parser.md R155). -/
theorem State.Inv.step_completes (hinv : s.Inv) : ∃ t, step s = .next t := by
  cases hd : decode (commandWord s) with
  | ok i => exact ⟨_, (step_of_decode_ok hd).trans (exec_eq i s fun _ => hinv.dlen)⟩
  | error e => exact ⟨_, step_of_decode_error hd⟩

theorem Reachable.inv (h : Reachable s) : s.Inv := by
  obtain ⟨sel, r, cc, s₀, hconstruct, hrun⟩ := h
  obtain ⟨b, -, hwf, rfl⟩ := construct_next hconstruct
  exact (constructed_inv hwf).after_runs hrun

end Invariant

/-- Settles O44: construction meets the invariant, every action keeps it, and a `start` pulse is
refused only where it fails. -/
theorem reachableStatesAreSafe : Obligations.ReachableStatesAreSafe :=
  fun _ h => ⟨h.inv, h.inv.step_completes⟩

end Sys2Proof.Machine

/-! ### Encoding a command word (30_encoding.md R60 to R62) -/

namespace Sys2Proof.Machine

/-- The two fields make up the word (R60). -/
theorem rsvField_append_opField (w : Byte) : rsvField w ++ opField w = w :=
  (BitVec.extractLsb'_append_extractLsb'_eq_extractLsb' (by decide)).trans BitVec.extractLsb'_eq_self

@[simp] theorem rsvField_append (a b : BitVec 4) : rsvField (a ++ b) = a :=
  BitVec.extractLsb'_append_eq_left

@[simp] theorem opField_append (a b : BitVec 4) : opField (a ++ b) = b :=
  BitVec.extractLsb'_append_eq_right

/-- The table of R62 read in both directions: a number selects an operation exactly when it is that
operation's number. -/
theorem instrOfOp_eq_some {op : BitVec 4} {i : Instr} : instrOfOp op = some i ↔ op = opOf i := by
  cases i <;> revert op <;> decide

section Encoding
variable {w : Byte} {i : Instr}

theorem decode_eq_ok_iff : decode w = .ok i ↔ rsvField w = 0 ∧ instrOfOp (opField w) = some i := by
  refine ⟨decode_eq_ok, fun ⟨hrsv, hop⟩ => ?_⟩
  rw [decode, if_pos hrsv, hop]

theorem decode_encode (i : Instr) : decode (encode i) = .ok i :=
  decode_eq_ok_iff.2 ⟨rsvField_append 0 (opOf i),
    instrOfOp_eq_some.2 (opField_append 0 (opOf i))⟩

/-- No two words decode to the same operation: both fields of the word are fixed by it. -/
theorem eq_encode_of_decode (h : decode w = .ok i) : w = encode i := by
  obtain ⟨hrsv, hop⟩ := decode_eq_ok h
  rw [← rsvField_append_opField w, hrsv, instrOfOp_eq_some.1 hop, encode]

end Encoding

/-- Settles O5: the fields of a word determine it, and the table of R62 is one to one. -/
theorem decodeAndEncodeAgree : Obligations.DecodeAndEncodeAgree :=
  ⟨decode_encode, fun _ _ => eq_encode_of_decode⟩

/-- Settles O3: reset is a construction with a well-formed registry (70_reset_and_hazards.md R193). -/
theorem resetMeetsTheInvariant : Obligations.ResetMeetsTheInvariant := by
  obtain ⟨b, -, hwf, hreset⟩ := construct_next construct_reset
  rw [Obligations.ResetMeetsTheInvariant, hreset]
  exact constructed_inv hwf

/-- Settles O43: of what the invariant speaks of, a step reaches the result registers only, and
leaves there the results of one operation or of an error. -/
theorem stepKeepsTheInvariant : Obligations.StepKeepsTheInvariant :=
  fun _ _ hinv h => hinv.after_step h

end Sys2Proof.Machine
